-- ==== Sys2Proof/Word.lean ====
section
/-! DEFINITION. The word types of the core and the concatenations the spec writes as `a:b`
(spec/00_scope.md R6, spec/30_encoding.md R82). Every value of this machine is unsigned (R6). -/

namespace Sys2Proof

/-- A data byte: the width of V0..VF, `DT`, `ST`, an immediate `kk` and a memory cell (R5, R20). -/
abbrev Byte := BitVec 8

/-- A 16-bit word: `I`, `pc`, a stack entry, an instruction word (R5). -/
abbrev Word := BitVec 16

/-- A 4-bit field of an instruction word: a register index `x` or `y`, the count `n`, or a nibble the
decoder ignores (R82, R91); also a logical key 0..15 (R38, R42). -/
abbrev Nibble := BitVec 4

/-- The 12-bit immediate `nnn` (R82). -/
abbrev Imm12 := BitVec 12

/-- `zext_16` of an 8-bit value (R7). -/
def zext16 (b : Byte) : Word := b.setWidth 16

end Sys2Proof
end

