-- ==== Sys2Proof/Machine/Flags.lean ====
section
/-! DEFINITION. Every flag computation of the ISA (spec/42_alu.md R140): the byte 0 or 1 that goes to VF. -/

namespace Sys2Proof.Machine

/-- The flag byte of a condition: 1 if it holds, else 0. -/
def flagByte (c : Bool) : Byte := if c then 0x01#8 else 0x00#8

/-- Carry: 1 iff the exact sum exceeds 255 (R148). -/
def carryFlag (a b : Byte) : Byte := flagByte (decide (255 < a.toNat + b.toNat))

/-- Not-borrow of `a - b`: 1 iff `a ≥ b` (R149, R151). -/
def notBorrowFlag (a b : Byte) : Byte := flagByte (decide (b.toNat ≤ a.toNat))

/-- The bit a right shift by 1 moves out: bit 0 (R150). -/
def shiftOutRight (a : Byte) : Byte := a &&& 0x01#8

/-- The bit a left shift by 1 moves out: bit 7 (R152). -/
def shiftOutLeft (a : Byte) : Byte := (a >>> 7) &&& 0x01#8

/-- The collision flag of Dxyn (R196). -/
def collisionFlag (collided : Bool) : Byte := flagByte collided

end Sys2Proof.Machine
end

