-- ==== Sys2Proof/Config.lean ====
section
/-! DEFINITION. The parameters of spec/00_scope.md R5 that the source fixes, and the FREE VALUES the
spec leaves open (constants with no body: no proof can see a value of them).
The two parameters a test program could show wrong, `Config.clsKK` and `Config.font`, are declared
where a repair may mend them: Sys2Proof/Decode.lean and Sys2Proof/Machine/Ops.lean. -/

namespace Sys2Proof

/-- `MEM_SIZE`: 4096 bytes, addresses 0x000..0xFFF (R5, R34). -/
abbrev Config.memSize : Nat := 4096

/-- `STACK_DEPTH`: 16 entries (R5, R32). -/
abbrev Config.stackDepth : Nat := 16

/-- `DISPLAY_W`: 64 columns (R5, R37). -/
abbrev Config.displayW : Nat := 64

/-- `DISPLAY_H`: 32 rows (R5, R37). -/
abbrev Config.displayH : Nat := 32

/-- `ENTRY`: 0x200, the reset value of `pc` and the load address (R5, R261). -/
abbrev Config.entry : Word := 0x200#16

/-- `RAND`, the byte drawn by each execution of Cxkk (R40, R111, R153; 92_eei_decisions.md D16), as a
function of the draw counter of State: any sequence of bytes, no law assumed. It also stands for the
OPEN `RESET_RNG` of R43: the generator's reset state is which sequence this is. Log entry 2. -/
opaque Config.rand : Nat → Byte

/-- What spec/60_exceptions.md R236 leaves open after an `OutOfBounds` in Dxyn: for the draw with this
number and the display row, bit `col` says whether that pixel took its drawn value (1) or kept the old one
(0). Log entry 3. -/
opaque Config.pixelResidue : Nat → Nat → BitVec 64

/-- What R236 leaves open after an `OutOfBounds` in Fx65: bit `r` says whether register `r` of V0..Vx took
the byte loaded for it (1) or kept its old value (0). Log entry 3. -/
opaque Config.regResidue : Nat → BitVec 16

end Sys2Proof
end

