-- ==== Sys2Proof/Machine/State.lean ====
section
/-! DEFINITION. The state of the core (spec/10_state.md), plain data: everything R20 to R43 name, and one
counter of the model's own for the values the spec leaves free. The reasons a step or a host action can
stop, and the state right after reset (R43). -/

namespace Sys2Proof.Machine

/-- `E(info)`: the four fault kinds of spec/60_exceptions.md R231 with what R233 has each record beside
the pc. A fault of the core is a NEXT state whose status is `halted` (R236; log entry 1). -/
inductive FaultInfo where
  /-- A read at `addr ≥ 4096` or a write with `addr + n ≥ 4096`; `addr` is the exact integer address
  passed to the failing access, for a write its start address. -/
  | outOfBounds (addr : Nat)
  /-- A push at depth 16. -/
  | stackOverflow
  /-- A pop at depth 0. -/
  | stackUnderflow
  /-- An illegal word, with the word. -/
  | unknownInstruction (w : Word)
deriving DecidableEq, Repr

/-- What a fault records (R233): the kind with its datum, and the address of the faulting instruction. -/
structure FaultRecord where
  info : FaultInfo
  pc   : Word
deriving DecidableEq, Repr

/-- `Running` or `Halted(E)` (R39). -/
inductive Status where
  | running
  | halted (r : FaultRecord)
deriving DecidableEq, Repr

/-- Memory: (address, byte) pairs, addresses strictly rising below 4096, no byte equal to what an
unlisted address reads as (`Memory.wf` of Machine/Ops.lean). -/
abbrev Memory := List Host.Cell

/-- The register file V0..VF (R20). -/
abbrev RegFile := Vector Byte 16

/-- The display, "a 64×32 grid of 1-bit pixels, row-major": 32 rows of 64 bits, pixel `(col, row)` the bit
`col` of row `row`, 1 for a lit pixel; so `disp[p]` is bit `p % 64` of row `p / 64` (R37). -/
abbrev Display := Vector (BitVec 64) 32

/-- Everything the spec gives the core (R20 to R41). -/
structure State where
  /-- V0..VF; VF is the flag register (R20, R21). -/
  v      : RegFile
  /-- The index register `I` (R27). -/
  i      : Word
  /-- The program counter (R24). -/
  pc     : Word
  /-- The delay timer `DT` (R29). -/
  dt     : Byte
  /-- The sound timer `ST` (R30). -/
  st     : Byte
  /-- The call stack, oldest entry first, the top last (R32, R58). -/
  stack  : List Word
  /-- Memory (R34). -/
  mem    : Memory
  /-- The display buffer (R37). -/
  disp   : Display
  /-- The input latch: no key, or the one key that is pressed (R38). -/
  latch  : Option Nibble
  /-- The status (R39). -/
  status : Status
  /-- The MODEL'S OWN, not the spec's: how many free values have been drawn (`Config.rand`,
  `Config.pixelResidue`, `Config.regResidue`); log entries 2 and 3. -/
  draws  : Nat
deriving DecidableEq, Repr

/-- Reasons an action answers `fault`. Faults of the CORE are not here: they are next states with the
status `halted` (R236), so no step and no instruction answers one of these. -/
inductive Fault where
  /-- Raised by the host action `LOAD` when `0x200 + len ≥ 4096`: memory and status are unchanged (R262).
  Safe: the spec's own answer. -/
  | loadOutOfBounds (addr : Nat)
deriving DecidableEq, Repr

/-- Reasons a step or a host action is refused. -/
inductive Refusal where
  /-- Raised by an arm of `exec` for an instruction without a meaning: no arm has it. Safe. -/
  | notModelled (mnemonic : String)
  /-- Raised by `step` when the status is `halted`: `STEP` is refused and changes nothing (R112). Safe. -/
  | coreHalted
  /-- Raised by the host action `SET_KEY` for a key of 16 or more (R10, D17). Safe. -/
  | keyOutOfRange (k : Nat)
  /-- Raised by the host action `LOAD` after the first `STEP` or after a first `LOAD` (R10, D18). Safe. -/
  | loadClosed
deriving DecidableEq, Repr

/-- The state after `RESET`, before `LOAD` (R43, R260). Memory lists nothing: an unlisted address reads
as the font below 0x050 and as 0x00 above. The zeros of V, `DT`, `ST`, the empty stack and latch are D13's
(log entry 5); `draws` is the model's (log entry 2). -/
def State.reset : State where
  v      := Vector.replicate 16 0x00#8
  i      := 0x0000#16
  pc     := Config.entry
  dt     := 0x00#8
  st     := 0x00#8
  stack  := []
  mem    := []
  disp   := Vector.replicate 32 0#64
  latch  := none
  status := .running
  draws  := 0

end Sys2Proof.Machine
end

