-- ==== Sys2Proof/Machine/Ops.lean ====
section
/-! DEFINITION. The named operations over the state: the memory controller and the stack controller
(spec/20_memory.md), the register file, the display engine (spec/44_display.md), the key latch
(spec/45_timers_keyboard.md), the updates of pc (spec/40_pipeline.md R104), and taking a fault
(spec/60_exceptions.md). There is no return from a fault (R237). -/

namespace Sys2Proof

/-- The 16 glyphs of the default `FONT` table (spec/10_state.md R36; bytes from general knowledge, D14;
log entry 6). -/
def Config.glyphs : List (List Byte) :=
  [ [0xF0, 0x90, 0x90, 0x90, 0xF0],
    [0x20, 0x60, 0x20, 0x20, 0x70],
    [0xF0, 0x10, 0xF0, 0x80, 0xF0],
    [0xF0, 0x10, 0xF0, 0x10, 0xF0],
    [0x90, 0x90, 0xF0, 0x10, 0x10],
    [0xF0, 0x80, 0xF0, 0x10, 0xF0],
    [0xF0, 0x80, 0xF0, 0x90, 0xF0],
    [0xF0, 0x10, 0x20, 0x40, 0x40],
    [0xF0, 0x90, 0xF0, 0x90, 0xF0],
    [0xF0, 0x90, 0xF0, 0x10, 0xF0],
    [0xF0, 0x90, 0xF0, 0x90, 0x90],
    [0xE0, 0x90, 0xE0, 0x90, 0xE0],
    [0xF0, 0x80, 0x80, 0x80, 0xF0],
    [0xE0, 0x90, 0x90, 0x90, 0xE0],
    [0xF0, 0x80, 0xF0, 0x80, 0xF0],
    [0xF0, 0x80, 0xF0, 0x80, 0x80] ]

/-- `FONT`: the 80 bytes at `FONT_BASE` = 0x000, glyph `d` at `5 * d` (R36). -/
def Config.font : List Byte := Config.glyphs.flatten

namespace Machine

/-- What a `STEP` or a host action answers. -/
abbrev Result := Host.Outcome State Fault Refusal

/-! ## Field updates -/

def State.setV (s : State) (a : RegFile) : State := { s with v := a }
def State.setI (s : State) (a : Word) : State := { s with i := a }
def State.setPc (s : State) (a : Word) : State := { s with pc := a }
def State.setDt (s : State) (a : Byte) : State := { s with dt := a }
def State.setSt (s : State) (a : Byte) : State := { s with st := a }
def State.setStack (s : State) (a : List Word) : State := { s with stack := a }
def State.setMem (s : State) (a : Memory) : State := { s with mem := a }
def State.setDisp (s : State) (a : Display) : State := { s with disp := a }
def State.setLatch (s : State) (a : Option Nibble) : State := { s with latch := a }
def State.setStatus (s : State) (a : Status) : State := { s with status := a }
def State.setDraws (s : State) (a : Nat) : State := { s with draws := a }

/-! ## The register file (R20 to R22) -/

/-- VF, register 15, the flag register (R21). -/
abbrev vf : Nibble := 0xF#4

/-- `V[x]`. -/
def State.readV (s : State) (x : Nibble) : Byte := s.v[x.toNat]

/-- `V[x] <- b`. -/
def State.writeV (s : State) (x : Nibble) (b : Byte) : State :=
  s.setV (s.v.set x.toNat b)

/-- The bytes of V0..Vx, in that order (R174). -/
def State.regsUpTo (s : State) (x : Nibble) : List Byte := s.v.toList.take (x.toNat + 1)

/-- V0, V1, ... take the listed bytes in order; the other registers stay (R175). -/
def State.writeRegs (s : State) (bs : List Byte) : State :=
  s.setV (Vector.ofFn fun r : Fin 16 => bs.getD r.val s.v[r])

/-! ## The memory controller (R50 to R56) -/

/-- What an address that no cell lists reads as: the reset contents, the font at 0x000..0x04F and 0x00
above (R43, R62; log entries 5 and 6). -/
def Memory.background (a : Nat) : Byte := Config.font.getD a 0x00#8

/-- The byte at an address. -/
def Memory.read : Memory → Nat → Byte
  | [], a => Memory.background a
  | c :: m, a => if c.1 = a then c.2 else Memory.read m a

/-- The cells of `m` without one at `a`. -/
def Memory.erase (m : Memory) (a : Nat) : Memory := m.filter fun c => c.1 != a

/-- The cells of `m` with one for `a`, in the order of addresses. -/
def Memory.insert : Memory → Nat → Byte → Memory
  | [], a, b => [(a, b)]
  | c :: m, a, b =>
    if a < c.1 then (a, b) :: c :: m
    else if c.1 = a then (a, b) :: m
    else c :: Memory.insert m a b

/-- One byte stored, the canonical form kept. -/
def Memory.write (m : Memory) (a : Nat) (b : Byte) : Memory :=
  if b = Memory.background a then m.erase a else m.insert a b

/-- Bytes stored at ascending addresses. -/
def Memory.writeBytes : Memory → Nat → List Byte → Memory
  | m, _, [] => m
  | m, a, b :: bs => (m.write a b).writeBytes (a + 1) bs

/-- The canonical form: addresses strictly rising and inside the address space, no byte equal to what an
unlisted address reads as. -/
def Memory.wf : Memory → Bool
  | [] => true
  | c :: m =>
    decide (c.1 < Config.memSize) && (c.2 != Memory.background c.1) &&
      (m.all fun d => decide (c.1 < d.1)) && Memory.wf m

/-- `MemRead(addr, 1)` (R52). -/
def memRead (m : Memory) (addr : Nat) : Except FaultInfo Byte :=
  if Config.memSize ≤ addr then .error (.outOfBounds addr) else .ok (m.read addr)

/-- `n` reads at ascending addresses from `addr`, stopped by the first that fails (R56, R175). -/
def memReadRange (m : Memory) (addr : Nat) : Nat → Except FaultInfo (List Byte)
  | 0 => .ok []
  | n + 1 =>
    match memRead m addr with
    | .error e => .error e
    | .ok b =>
      match memReadRange m (addr + 1) n with
      | .error e => .error e
      | .ok bs => .ok (b :: bs)

/-- `MemWrite(addr, n, d)`: all of `d` or nothing; the bound is off by one as the source has it (R53,
R54). -/
def memWrite (m : Memory) (addr : Nat) (d : List Byte) : Except FaultInfo Memory :=
  if Config.memSize ≤ addr + d.length then .error (.outOfBounds addr) else .ok (m.writeBytes addr d)

/-! ## The stack controller (R58 to R60) -/

/-- `Push(a)`; a full stack is 16 entries, and no run holds more (R32). -/
def push (s : State) (a : Word) : Except FaultInfo State :=
  if Config.stackDepth ≤ s.stack.length then .error .stackOverflow
  else .ok (s.setStack (s.stack ++ [a]))

/-- `Pop()`. -/
def pop (s : State) : Except FaultInfo (Word × State) :=
  match s.stack.getLast? with
  | none => .error .stackUnderflow
  | some a => .ok (a, s.setStack s.stack.dropLast)

/-! ## The display engine (R190 to R193) -/

/-- A row number, normalized into range by modulo (R190). -/
def rowIndex (row : Nat) : Fin 32 := ⟨row % Config.displayH, Nat.mod_lt _ (by decide)⟩

/-- The pixel at a column and a row, both normalized into range by modulo (R190). -/
def pixel (d : Display) (col row : Nat) : Bool := d[rowIndex row].getLsbD (col % Config.displayW)

/-- `disp[p]` for `p` in 0..2047: row-major (R37). -/
def dispBit (d : Display) (p : Nat) : Bool := pixel d (p % Config.displayW) (p / Config.displayW)

/-- `disp[p] <- disp[p] XOR v` for the pixel at a column and a row (R192). -/
def xorPixel (d : Display) (col row : Nat) (v : Bool) : Display :=
  if v then d.set (rowIndex row) (d[rowIndex row] ^^^ BitVec.twoPow 64 (col % Config.displayW)) else d

/-- Bit `j` of a sprite byte from the left: `j = 0` is bit 7 (R192). -/
def spriteBit (b : Byte) (j : Nat) : Bool := b.getLsbD (7 - j)

/-- `DisplayClear()` (R191). -/
def displayClear : Display := Vector.replicate 32 0#64

/-- One column of a row draw: the collision test on the existing pixel, before the XOR (R193), then the
XOR (R192). -/
def drawPixel (x y : Nat) (b : Byte) (acc : Display × Bool) (j : Nat) : Display × Bool :=
  (xorPixel acc.1 (x + j) y (spriteBit b j), acc.2 || (pixel acc.1 (x + j) y && !spriteBit b j))

/-- `DisplayDraw(x, y, b)`: the display after the eight columns, and `collided` (R192). -/
def displayDraw (d : Display) (x y : Nat) (b : Byte) : Display × Bool :=
  (List.range 8).foldl (drawPixel x y b) (d, false)

/-- What the row loop of Dxyn comes to: all rows drawn, with the collisions or-ed; or a read that failed,
with the rows before it drawn. -/
inductive Drawn where
  | done (d : Display) (collided : Bool)
  | stopped (e : FaultInfo) (d : Display)
deriving DecidableEq, Repr

/-- The row loop of R196: row `r` takes the byte at `base + r` to display row `cy + r`, for `k` rows from
`r` on. -/
def drawRows (m : Memory) (base cx cy : Nat) : Nat → Nat → Display → Bool → Drawn
  | 0, _, d, c => .done d c
  | k + 1, r, d, c =>
    match memRead m (base + r) with
    | .error e => .stopped e d
    | .ok b => drawRows m base cx cy k (r + 1) (displayDraw d cx (cy + r) b).1
        ((displayDraw d cx (cy + r) b).2 || c)

/-! ## The key latch (R213, R214) -/

/-- `GetKey()`: the latch, unchanged (R214). -/
def State.getKey (s : State) : Option Nibble := s.latch

/-- `IsKeyPressed(b)`: the latch holds exactly that key; never for `b ≥ 16` (R213). -/
def State.isKeyPressed (s : State) (b : Byte) : Bool :=
  match s.latch with
  | none => false
  | some k => k.setWidth 8 == b

/-! ## The program counter (R104) -/

/-- The sequential class: `pc + 2`. -/
def State.advance (s : State) : State := s.setPc (s.pc + 2#16)

/-- The skip class: `pc + 4` if the condition holds, else `pc + 2`. -/
def State.skipIf (s : State) (cond : Bool) : State :=
  s.setPc (s.pc + if cond then 4#16 else 2#16)

/-! ## Free values (log entries 2 and 3) -/

/-- The state after one free value has been drawn. -/
def State.drawn (s : State) : State := s.setDraws (s.draws + 1)

/-- The display left by an `OutOfBounds` in Dxyn: each pixel is its old or its drawn value (R236). -/
def residueDisplay (k : Nat) (old new : Display) : Display :=
  Vector.ofFn fun row : Fin 32 =>
    (new[row] &&& Config.pixelResidue k row.val) ||| (old[row] &&& ~~~Config.pixelResidue k row.val)

/-- The registers left by an `OutOfBounds` in Fx65 with last register `x` and start address `base`: each
of V0..Vx whose byte can be read is its old value or that byte; every other register is unchanged (R236). -/
def residueRegs (k : Nat) (m : Memory) (base : Nat) (x : Nibble) (old : RegFile) : RegFile :=
  Vector.ofFn fun r : Fin 16 =>
    if (Config.regResidue k).getLsbD r.val && decide (r.val ≤ x.toNat) &&
        decide (base + r.val < Config.memSize)
    then m.read (base + r.val) else old[r]

/-! ## Taking a fault (R230 to R236) -/

/-- `raise E(info)`: the step ends; the status becomes `Halted(E)` with the kind, its datum and the
address of the faulting instruction, which pc still holds; nothing else changes (R233, R235, R236). -/
def raise (e : FaultInfo) (s : State) : Result :=
  .next (s.setStatus (.halted ⟨e, s.pc⟩))

end Machine
end Sys2Proof
end

