-- ==== Sys2Proof/Machine/Alu.lean ====
section
/-! DEFINITION. The ALU (spec/42_alu.md): 8-bit unsigned arithmetic modulo 256 (R140); where a flag is
written, the result goes to Vx first and the flag to VF last, both from the operands' values before the
instruction (R141, D3). Every instruction here is of the sequential class. -/

namespace Sys2Proof.Machine

/-- `V[x] <- r`, then `pc + 2`. -/
def setResult (x : Nibble) (r : Byte) (s : State) : Result := .next (s.writeV x r).advance

/-- `V[x] <- r`, then `V[15] <- f`, then `pc + 2` (R141). -/
def setResultFlag (x : Nibble) (r f : Byte) (s : State) : Result :=
  .next ((s.writeV x r).writeV vf f).advance

/-- LD Vx, kk (R142). -/
def execLdImm (x : Nibble) (kk : Byte) (s : State) : Result := setResult x kk s

/-- ADD Vx, kk (R143): no flag. -/
def execAddImm (x : Nibble) (kk : Byte) (s : State) : Result := setResult x (s.readV x + kk) s

/-- LD Vx, Vy (R144). -/
def execLdReg (x y : Nibble) (s : State) : Result := setResult x (s.readV y) s

/-- OR Vx, Vy (R145): VF only when it is Vx (D5). -/
def execOrReg (x y : Nibble) (s : State) : Result := setResult x (s.readV x ||| s.readV y) s

/-- AND Vx, Vy (R146): VF only when it is Vx (D5). -/
def execAndReg (x y : Nibble) (s : State) : Result := setResult x (s.readV x &&& s.readV y) s

/-- XOR Vx, Vy (R147): VF only when it is Vx (D5). -/
def execXorReg (x y : Nibble) (s : State) : Result := setResult x (s.readV x ^^^ s.readV y) s

/-- ADD Vx, Vy (R148): VF is the carry, always written. -/
def execAddReg (x y : Nibble) (s : State) : Result :=
  setResultFlag x (s.readV x + s.readV y) (carryFlag (s.readV x) (s.readV y)) s

/-- SUB Vx, Vy (R149): VF is the not-borrow. -/
def execSubReg (x y : Nibble) (s : State) : Result :=
  setResultFlag x (s.readV x - s.readV y) (notBorrowFlag (s.readV x) (s.readV y)) s

/-- SHR Vx (R150): Vx in place, `y` ignored (D4). -/
def execShr (x _y : Nibble) (s : State) : Result :=
  setResultFlag x (s.readV x >>> 1) (shiftOutRight (s.readV x)) s

/-- SUBN Vx, Vy (R151): `V[y] - V[x]`. -/
def execSubn (x y : Nibble) (s : State) : Result :=
  setResultFlag x (s.readV y - s.readV x) (notBorrowFlag (s.readV y) (s.readV x)) s

/-- SHL Vx (R152): Vx in place, `y` ignored (D4). -/
def execShl (x _y : Nibble) (s : State) : Result :=
  setResultFlag x (s.readV x <<< 1) (shiftOutLeft (s.readV x)) s

/-- RND Vx, kk (R153): the step's draw `RAND`, any byte (R111), masked with `kk`. -/
def execRnd (x : Nibble) (kk : Byte) (s : State) : Result :=
  setResult x (Config.rand s.draws &&& kk) s.drawn

end Sys2Proof.Machine
end

