-- ==== Sys2Proof/Machine/Operands.lean ====
section
/-! DEFINITION. How an operand becomes a value: zero extension of the immediates
(spec/30_encoding.md R83), the address of a data access (spec/43_index_memory.md R176), the glyph address
and the decimal digits (R154, R172, R173). -/

namespace Sys2Proof.Machine

/-- `zext_16(nnn)` (R83). -/
def nnnWord (nnn : Imm12) : Word := nnn.setWidth 16

/-- The start address of a data access, the exact integer `I` (R55, R176). -/
def State.dataAddr (s : State) : Nat := s.i.toNat

/-- The row count or register count of a nibble, as a number. -/
def countOf (n : Nibble) : Nat := n.toNat

/-- `I` after Fx55 or Fx65: `(I + x + 1) mod 2^16` (R174, R175). -/
def State.indexAfter (s : State) (x : Nibble) : Word := s.i + x.setWidth 16 + 1#16

/-- `zext_16(b) * 5`, the address of glyph `b`; at most 1275, so exact (R172). -/
def glyphAddr (b : Byte) : Word := zext16 b * 5#16

/-- The hundreds, tens and units of a byte, in the order Fx33 stores them (R173). -/
def decimalDigits (b : Byte) : List Byte :=
  [b / 100#8, b / 10#8 % 10#8, b % 10#8]

end Sys2Proof.Machine
end

