-- ==== Sys2Proof/Machine/ControlFlow.lean ====
section
/-! DEFINITION. The control-transfer instructions (spec/41_control_flow.md). None writes VF. -/

namespace Sys2Proof.Machine

/-- RET (R120): pop into pc; `StackUnderflow` on an empty stack. -/
def execRet (_u : Nibble) (s : State) : Result :=
  match pop s with
  | .error e => raise e s
  | .ok (t, s') => .next (s'.setPc t)

/-- JP nnn (R121). -/
def execJp (nnn : Imm12) (s : State) : Result := .next (s.setPc (nnnWord nnn))

/-- CALL nnn (R122): push `pc + 2`, jump; `StackOverflow` on a full stack. -/
def execCall (nnn : Imm12) (s : State) : Result :=
  match push s (s.pc + 2#16) with
  | .error e => raise e s
  | .ok s' => .next (s'.setPc (nnnWord nnn))

/-- SE Vx, kk (R123). -/
def execSeImm (x : Nibble) (kk : Byte) (s : State) : Result :=
  .next (s.skipIf (s.readV x == kk))

/-- SNE Vx, kk (R124). -/
def execSneImm (x : Nibble) (kk : Byte) (s : State) : Result :=
  .next (s.skipIf (s.readV x != kk))

/-- SE Vx, Vy (R125); the low nibble is ignored (R91, D2). -/
def execSeReg (x y _u : Nibble) (s : State) : Result :=
  .next (s.skipIf (s.readV x == s.readV y))

/-- SNE Vx, Vy (R126); the low nibble is ignored (R91, D2). -/
def execSneReg (x y _u : Nibble) (s : State) : Result :=
  .next (s.skipIf (s.readV x != s.readV y))

/-- JP V0, nnn (R127): the 16-bit sum, never reduced modulo 4096 (D9). -/
def execJpV0 (nnn : Imm12) (s : State) : Result :=
  .next (s.setPc (nnnWord nnn + zext16 (s.readV 0x0#4)))

end Sys2Proof.Machine
end

