-- ==== Sys2Proof/Machine/Display.lean ====
section
/-! DEFINITION. The display instructions (spec/44_display.md), of the sequential class. -/

namespace Sys2Proof.Machine

/-- CLS (R195). -/
def execCls (_u : Nibble) (s : State) : Result := .next (s.setDisp displayClear).advance

/-- DRW Vx, Vy, n (R196): the coordinates are read before VF is written; VF is always written when every
row's byte could be read. After a read that fails, VF is unchanged and each pixel is its old or its drawn
value (R236). -/
def execDrw (x y n : Nibble) (s : State) : Result :=
  match drawRows s.mem s.dataAddr (s.readV x).toNat (s.readV y).toNat (countOf n) 0 s.disp false with
  | .done d c => .next ((s.setDisp d).writeV vf (collisionFlag c)).advance
  | .stopped e d => raise e (s.setDisp (residueDisplay s.draws s.disp d)).drawn

end Sys2Proof.Machine
end

