-- ==== Sys2Proof/Machine/IndexMemory.lean ====
section
/-! DEFINITION. The index register and the memory transfers (spec/43_index_memory.md), all of the
sequential class. -/

namespace Sys2Proof.Machine

/-- LD I, nnn (R170). -/
def execLdI (nnn : Imm12) (s : State) : Result := .next (s.setI (nnnWord nnn)).advance

/-- ADD I, Vx (R171): modulo 2^16, no flag (D8). -/
def execAddI (x : Nibble) (s : State) : Result :=
  .next (s.setI (s.i + zext16 (s.readV x))).advance

/-- LD F, Vx (R172): `V[x]` is not masked (D12). -/
def execLdF (x : Nibble) (s : State) : Result := .next (s.setI (glyphAddr (s.readV x))).advance

/-- LD B, Vx (R173): three digits at `I`; `I` is unchanged (D7). -/
def execLdB (x : Nibble) (s : State) : Result :=
  match memWrite s.mem s.dataAddr (decimalDigits (s.readV x)) with
  | .error e => raise e s
  | .ok m => .next (s.setMem m).advance

/-- LD [I], Vx (R174): one write of V0..Vx at `I`, then `I` moves past them. -/
def execStoreRegs (x : Nibble) (s : State) : Result :=
  match memWrite s.mem s.dataAddr (s.regsUpTo x) with
  | .error e => raise e s
  | .ok m => .next ((s.setMem m).setI (s.indexAfter x)).advance

/-- LD Vx, [I] (R175): V0..Vx from `I`, then `I` moves past them (D6). After a read that fails, each of
V0..Vx is its old value or the byte loaded for it, and `I` is unchanged (R236). -/
def execLoadRegs (x : Nibble) (s : State) : Result :=
  match memReadRange s.mem s.dataAddr (countOf x + 1) with
  | .error e => raise e (s.setV (residueRegs s.draws s.mem s.dataAddr x s.v)).drawn
  | .ok bs => .next ((s.writeRegs bs).setI (s.indexAfter x)).advance

end Sys2Proof.Machine
end

