-- ==== Sys2Proof/Machine/TimersKeyboard.lean ====
section
/-! DEFINITION. The timer and key instructions (spec/45_timers_keyboard.md). None changes the latch. -/

namespace Sys2Proof.Machine

/-- SKP Vx (R215). -/
def execSkp (x : Nibble) (s : State) : Result := .next (s.skipIf (s.isKeyPressed (s.readV x)))

/-- SKNP Vx (R216). -/
def execSknp (x : Nibble) (s : State) : Result := .next (s.skipIf (!s.isKeyPressed (s.readV x)))

/-- LD Vx, DT (R217). -/
def execLdVxDt (x : Nibble) (s : State) : Result := .next (s.writeV x s.dt).advance

/-- LD Vx, K (R218): with a key latched, store it and advance, the latch kept (D23); with none, nothing
changes and the same instruction runs again at the next step (R110). -/
def execLdVxK (x : Nibble) (s : State) : Result :=
  match s.getKey with
  | some k => .next (s.writeV x (k.setWidth 8)).advance
  | none => .next s

/-- LD DT, Vx (R219). -/
def execLdDtVx (x : Nibble) (s : State) : Result := .next (s.setDt (s.readV x)).advance

/-- LD ST, Vx (R220). -/
def execLdStVx (x : Nibble) (s : State) : Result := .next (s.setSt (s.readV x)).advance

end Sys2Proof.Machine
end

