-- ==== Sys2Proof/Syntax.lean ====
section
/-! DEFINITION. The instructions: one constructor per row of spec/opcode_table.json, in the order of
spec/30_encoding.md R86. The operands are the row's fields at the widths of R82, the nibbles the decoder
ignores among them (`u`, and `y` of the shifts), so that no bit of a word is lost. -/

namespace Sys2Proof

/-- The 34 instructions of R86. `x` and `y` name registers, `n` is a row count, `kk` and `nnn` are
immediates, `u` is a nibble that no rule examines (R91). -/
inductive Instr where
  /-- `0-kk` with `kk = CLS_KK`: clear the display (R195). -/
  | cls (u : Nibble)
  /-- `0-EE`: return from subroutine (R120). -/
  | ret (u : Nibble)
  /-- `1nnn`: jump (R121). -/
  | jp (nnn : Imm12)
  /-- `2nnn`: call (R122). -/
  | call (nnn : Imm12)
  /-- `3xkk`: skip if `V[x] = kk` (R123). -/
  | seImm (x : Nibble) (kk : Byte)
  /-- `4xkk`: skip if `V[x] ≠ kk` (R124). -/
  | sneImm (x : Nibble) (kk : Byte)
  /-- `5xy-`: skip if `V[x] = V[y]` (R125). -/
  | seReg (x y u : Nibble)
  /-- `6xkk`: load immediate (R142). -/
  | ldImm (x : Nibble) (kk : Byte)
  /-- `7xkk`: add immediate, no flag (R143). -/
  | addImm (x : Nibble) (kk : Byte)
  /-- `8xy0`: move (R144). -/
  | ldReg (x y : Nibble)
  /-- `8xy1`: OR (R145). -/
  | orReg (x y : Nibble)
  /-- `8xy2`: AND (R146). -/
  | andReg (x y : Nibble)
  /-- `8xy3`: XOR (R147). -/
  | xorReg (x y : Nibble)
  /-- `8xy4`: add with carry flag (R148). -/
  | addReg (x y : Nibble)
  /-- `8xy5`: subtract with not-borrow flag (R149). -/
  | subReg (x y : Nibble)
  /-- `8xy6`: shift right by 1; `y` is encoded and not read (R150). -/
  | shr (x y : Nibble)
  /-- `8xy7`: reverse subtract with not-borrow flag (R151). -/
  | subn (x y : Nibble)
  /-- `8xyE`: shift left by 1; `y` is encoded and not read (R152). -/
  | shl (x y : Nibble)
  /-- `9xy-`: skip if `V[x] ≠ V[y]` (R126). -/
  | sneReg (x y u : Nibble)
  /-- `Annn`: load the index register (R170). -/
  | ldI (nnn : Imm12)
  /-- `Bnnn`: jump to `nnn + V0` (R127). -/
  | jpV0 (nnn : Imm12)
  /-- `Cxkk`: random byte masked with `kk` (R153). -/
  | rnd (x : Nibble) (kk : Byte)
  /-- `Dxyn`: draw a sprite of `n` rows (R196). -/
  | drw (x y n : Nibble)
  /-- `Ex9E`: skip if the key `V[x]` is pressed (R215). -/
  | skp (x : Nibble)
  /-- `ExA1`: skip if the key `V[x]` is not pressed (R216). -/
  | sknp (x : Nibble)
  /-- `Fx07`: read the delay timer (R217). -/
  | ldVxDt (x : Nibble)
  /-- `Fx0A`: wait for a key (R218). -/
  | ldVxK (x : Nibble)
  /-- `Fx15`: set the delay timer (R219). -/
  | ldDtVx (x : Nibble)
  /-- `Fx18`: set the sound timer (R220). -/
  | ldStVx (x : Nibble)
  /-- `Fx1E`: add `V[x]` to `I` (R171). -/
  | addI (x : Nibble)
  /-- `Fx29`: point `I` at the font glyph of `V[x]` (R172). -/
  | ldF (x : Nibble)
  /-- `Fx33`: store the decimal digits of `V[x]` (R173). -/
  | ldB (x : Nibble)
  /-- `Fx55`: store V0..Vx at `I` (R174). -/
  | storeRegs (x : Nibble)
  /-- `Fx65`: load V0..Vx from `I` (R175). -/
  | loadRegs (x : Nibble)
deriving DecidableEq, Repr

end Sys2Proof
end

