-- ==== Sys2Proof/Decode.lean ====
section
/-! DEFINITION. The instruction encoding of spec/30_encoding.md: the fields of a word (R82), the
two-level dispatch ROM (R84 to R91) as a total decoder that rejects by name (R92, R94), the encoder written
from the same table, and the opcode map of R86 as a list of mask and match rows. -/

namespace Sys2Proof

/-- `CLS_KK` = 0x0E, the source's own literal; 0xE0 is the one alternative (R98, C2, D1; log entry 4). -/
def Config.clsKK : Byte := 0x0E#8

/-- `op = w[15:12]`, the family selector (R82). -/
def opOf (w : Word) : Nibble := w.extractLsb' 12 4
/-- `x = w[11:8]` (R82). -/
def xOf (w : Word) : Nibble := w.extractLsb' 8 4
/-- `y = w[7:4]` (R82). -/
def yOf (w : Word) : Nibble := w.extractLsb' 4 4
/-- `n = w[3:0]` (R82). -/
def nOf (w : Word) : Nibble := w.extractLsb' 0 4
/-- `kk = w[7:0]` (R82). -/
def kkOf (w : Word) : Byte := w.extractLsb' 0 8
/-- `nnn = w[11:0]` (R82). -/
def nnnOf (w : Word) : Imm12 := w.extractLsb' 0 12

/-- Why bytes are no instruction: the family of R92 whose second level has no entry for the word, or
fewer than two bytes. -/
inductive Reject where
  /-- `0xkk` with `kk` neither `CLS_KK` nor 0xEE (R87). -/
  | family0 (w : Word)
  /-- `8xyn` with `n` in 8, 9, A, B, C, D, F (R88). -/
  | family8 (w : Word)
  /-- `Exkk` with `kk` neither 0x9E nor 0xA1 (R89). -/
  | familyE (w : Word)
  /-- `Fxkk` with `kk` not one of the nine of R90. -/
  | familyF (w : Word)
  /-- Fewer than `INSTR_BYTES` = 2 bytes (R80). -/
  | truncated (len : Nat)
deriving DecidableEq, Repr

/-- The one verdict the decoder gives every word (R94). -/
inductive Verdict where
  | instr (i : Instr)
  | illegal (r : Reject)
deriving DecidableEq, Repr

/-- The instruction of a verdict, if it has one. -/
def Verdict.instr? : Verdict → Option Instr
  | .instr i => some i
  | .illegal _ => none

/-- Second level for `op = 0x0`, indexed by `kk`; `x` is not examined (R87). -/
def decodeFamily0 (w : Word) : Verdict :=
  if kkOf w = Config.clsKK then .instr (.cls (xOf w))
  else if kkOf w = 0xEE#8 then .instr (.ret (xOf w))
  else .illegal (.family0 w)

/-- Second level for `op = 0x8`, indexed by `n` (R88). -/
def decodeFamily8 (w : Word) : Verdict :=
  match (nOf w).toNat with
  | 0x0 => .instr (.ldReg (xOf w) (yOf w))
  | 0x1 => .instr (.orReg (xOf w) (yOf w))
  | 0x2 => .instr (.andReg (xOf w) (yOf w))
  | 0x3 => .instr (.xorReg (xOf w) (yOf w))
  | 0x4 => .instr (.addReg (xOf w) (yOf w))
  | 0x5 => .instr (.subReg (xOf w) (yOf w))
  | 0x6 => .instr (.shr (xOf w) (yOf w))
  | 0x7 => .instr (.subn (xOf w) (yOf w))
  | 0xE => .instr (.shl (xOf w) (yOf w))
  | _ => .illegal (.family8 w)

/-- Second level for `op = 0xE`, indexed by `kk` (R89). -/
def decodeFamilyE (w : Word) : Verdict :=
  match (kkOf w).toNat with
  | 0x9E => .instr (.skp (xOf w))
  | 0xA1 => .instr (.sknp (xOf w))
  | _ => .illegal (.familyE w)

/-- Second level for `op = 0xF`, indexed by `kk` (R90). -/
def decodeFamilyF (w : Word) : Verdict :=
  match (kkOf w).toNat with
  | 0x07 => .instr (.ldVxDt (xOf w))
  | 0x0A => .instr (.ldVxK (xOf w))
  | 0x15 => .instr (.ldDtVx (xOf w))
  | 0x18 => .instr (.ldStVx (xOf w))
  | 0x1E => .instr (.addI (xOf w))
  | 0x29 => .instr (.ldF (xOf w))
  | 0x33 => .instr (.ldB (xOf w))
  | 0x55 => .instr (.storeRegs (xOf w))
  | 0x65 => .instr (.loadRegs (xOf w))
  | _ => .illegal (.familyF w)

/-- The first-level ROM, indexed by `op` (R85). `op` has four bits, so the last arm is `op = 0xF`. -/
def decodeWord (w : Word) : Verdict :=
  match (opOf w).toNat with
  | 0x0 => decodeFamily0 w
  | 0x1 => .instr (.jp (nnnOf w))
  | 0x2 => .instr (.call (nnnOf w))
  | 0x3 => .instr (.seImm (xOf w) (kkOf w))
  | 0x4 => .instr (.sneImm (xOf w) (kkOf w))
  | 0x5 => .instr (.seReg (xOf w) (yOf w) (nOf w))
  | 0x6 => .instr (.ldImm (xOf w) (kkOf w))
  | 0x7 => .instr (.addImm (xOf w) (kkOf w))
  | 0x8 => decodeFamily8 w
  | 0x9 => .instr (.sneReg (xOf w) (yOf w) (nOf w))
  | 0xA => .instr (.ldI (nnnOf w))
  | 0xB => .instr (.jpV0 (nnnOf w))
  | 0xC => .instr (.rnd (xOf w) (kkOf w))
  | 0xD => .instr (.drw (xOf w) (yOf w) (nOf w))
  | 0xE => decodeFamilyE w
  | _ => decodeFamilyF w

/-- The word of two bytes, the one at the lower address as the high byte (R81). -/
def wordOfBytes (hi lo : Byte) : Word := hi ++ lo

/-- The two bytes of a word in the order memory holds them (R81). -/
def bytesOfWord (w : Word) : List Byte := [w.extractLsb' 8 8, w.extractLsb' 0 8]

/-- Decoding of any bytes: the verdict on the first two, and the bytes left (R80, R94). -/
def decode : List Byte → Verdict × List Byte
  | hi :: lo :: rest => (decodeWord (wordOfBytes hi lo), rest)
  | [b] => (.illegal (.truncated 1), [b])
  | [] => (.illegal (.truncated 0), [])

/-- A word of the shape `op:nnn` (R82). -/
def formNnn (op : Nibble) (nnn : Imm12) : Word := op ++ nnn
/-- A word of the shape `op:x:kk` (R82). -/
def formXKk (op x : Nibble) (kk : Byte) : Word := op ++ x ++ kk
/-- A word of the shape `op:x:y:n` (R82). -/
def formXYN (op x y n : Nibble) : Word := op ++ x ++ y ++ n

/-- The word of an instruction, from the patterns of R86. -/
def encode : Instr → Word
  | .cls u => formXKk 0x0#4 u Config.clsKK
  | .ret u => formXKk 0x0#4 u 0xEE#8
  | .jp nnn => formNnn 0x1#4 nnn
  | .call nnn => formNnn 0x2#4 nnn
  | .seImm x kk => formXKk 0x3#4 x kk
  | .sneImm x kk => formXKk 0x4#4 x kk
  | .seReg x y u => formXYN 0x5#4 x y u
  | .ldImm x kk => formXKk 0x6#4 x kk
  | .addImm x kk => formXKk 0x7#4 x kk
  | .ldReg x y => formXYN 0x8#4 x y 0x0#4
  | .orReg x y => formXYN 0x8#4 x y 0x1#4
  | .andReg x y => formXYN 0x8#4 x y 0x2#4
  | .xorReg x y => formXYN 0x8#4 x y 0x3#4
  | .addReg x y => formXYN 0x8#4 x y 0x4#4
  | .subReg x y => formXYN 0x8#4 x y 0x5#4
  | .shr x y => formXYN 0x8#4 x y 0x6#4
  | .subn x y => formXYN 0x8#4 x y 0x7#4
  | .shl x y => formXYN 0x8#4 x y 0xE#4
  | .sneReg x y u => formXYN 0x9#4 x y u
  | .ldI nnn => formNnn 0xA#4 nnn
  | .jpV0 nnn => formNnn 0xB#4 nnn
  | .rnd x kk => formXKk 0xC#4 x kk
  | .drw x y n => formXYN 0xD#4 x y n
  | .skp x => formXKk 0xE#4 x 0x9E#8
  | .sknp x => formXKk 0xE#4 x 0xA1#8
  | .ldVxDt x => formXKk 0xF#4 x 0x07#8
  | .ldVxK x => formXKk 0xF#4 x 0x0A#8
  | .ldDtVx x => formXKk 0xF#4 x 0x15#8
  | .ldStVx x => formXKk 0xF#4 x 0x18#8
  | .addI x => formXKk 0xF#4 x 0x1E#8
  | .ldF x => formXKk 0xF#4 x 0x29#8
  | .ldB x => formXKk 0xF#4 x 0x33#8
  | .storeRegs x => formXKk 0xF#4 x 0x55#8
  | .loadRegs x => formXKk 0xF#4 x 0x65#8

/-- The bytes of an instruction as memory holds them (R81). -/
def encodeBytes (i : Instr) : List Byte := bytesOfWord (encode i)

/-- One row of the opcode map: a word is the row's when its bits under `mask` are `pattern`. -/
structure OpcodeRow where
  mnemonic : String
  mask     : Word
  pattern  : Word
deriving DecidableEq, Repr

/-- Whether a word is of this row. -/
def OpcodeRow.covers (r : OpcodeRow) (w : Word) : Bool := w &&& r.mask == r.pattern

/-- Families 0 to 7 of R86 with the mask and match each instruction's rule states. -/
def opcodeRowsLow : List OpcodeRow :=
  [ ⟨"CLS", 0xF0FF#16, Config.clsKK.setWidth 16⟩,
    ⟨"RET", 0xF0FF#16, 0x00EE#16⟩,
    ⟨"JP_nnn", 0xF000#16, 0x1000#16⟩,
    ⟨"CALL_nnn", 0xF000#16, 0x2000#16⟩,
    ⟨"SE_Vx__kk", 0xF000#16, 0x3000#16⟩,
    ⟨"SNE_Vx__kk", 0xF000#16, 0x4000#16⟩,
    ⟨"SE_Vx__Vy", 0xF000#16, 0x5000#16⟩,
    ⟨"LD_Vx__kk", 0xF000#16, 0x6000#16⟩,
    ⟨"ADD_Vx__kk", 0xF000#16, 0x7000#16⟩ ]

/-- Families 8 to D of R86. -/
def opcodeRowsMid : List OpcodeRow :=
  [ ⟨"LD_Vx__Vy", 0xF00F#16, 0x8000#16⟩,
    ⟨"OR_Vx__Vy", 0xF00F#16, 0x8001#16⟩,
    ⟨"AND_Vx__Vy", 0xF00F#16, 0x8002#16⟩,
    ⟨"XOR_Vx__Vy", 0xF00F#16, 0x8003#16⟩,
    ⟨"ADD_Vx__Vy", 0xF00F#16, 0x8004#16⟩,
    ⟨"SUB_Vx__Vy", 0xF00F#16, 0x8005#16⟩,
    ⟨"SHR_Vx", 0xF00F#16, 0x8006#16⟩,
    ⟨"SUBN_Vx__Vy", 0xF00F#16, 0x8007#16⟩,
    ⟨"SHL_Vx", 0xF00F#16, 0x800E#16⟩,
    ⟨"SNE_Vx__Vy", 0xF000#16, 0x9000#16⟩,
    ⟨"LD_I__nnn", 0xF000#16, 0xA000#16⟩,
    ⟨"JP_V0__nnn", 0xF000#16, 0xB000#16⟩,
    ⟨"RND_Vx__kk", 0xF000#16, 0xC000#16⟩,
    ⟨"DRW_Vx__Vy__n", 0xF000#16, 0xD000#16⟩ ]

/-- Families E and F of R86. -/
def opcodeRowsHigh : List OpcodeRow :=
  [ ⟨"SKP_Vx", 0xF0FF#16, 0xE09E#16⟩,
    ⟨"SKNP_Vx", 0xF0FF#16, 0xE0A1#16⟩,
    ⟨"LD_Vx__DT", 0xF0FF#16, 0xF007#16⟩,
    ⟨"LD_Vx__K", 0xF0FF#16, 0xF00A#16⟩,
    ⟨"LD_DT__Vx", 0xF0FF#16, 0xF015#16⟩,
    ⟨"LD_ST__Vx", 0xF0FF#16, 0xF018#16⟩,
    ⟨"ADD_I__Vx", 0xF0FF#16, 0xF01E#16⟩,
    ⟨"LD_F__Vx", 0xF0FF#16, 0xF029#16⟩,
    ⟨"LD_B__Vx", 0xF0FF#16, 0xF033#16⟩,
    ⟨"LD__I___Vx", 0xF0FF#16, 0xF055#16⟩,
    ⟨"LD_Vx___I", 0xF0FF#16, 0xF065#16⟩ ]

/-- The complete opcode map (R86), written apart from the decoder: what the decoder accepts is stated
against it. -/
def opcodeMap : List OpcodeRow := opcodeRowsLow ++ opcodeRowsMid ++ opcodeRowsHigh

/-- The mnemonic of an instruction, as spec/opcode_table.json spells it. -/
def mnemonic : Instr → String
  | .cls _ => "CLS"
  | .ret _ => "RET"
  | .jp _ => "JP_nnn"
  | .call _ => "CALL_nnn"
  | .seImm _ _ => "SE_Vx__kk"
  | .sneImm _ _ => "SNE_Vx__kk"
  | .seReg _ _ _ => "SE_Vx__Vy"
  | .ldImm _ _ => "LD_Vx__kk"
  | .addImm _ _ => "ADD_Vx__kk"
  | .ldReg _ _ => "LD_Vx__Vy"
  | .orReg _ _ => "OR_Vx__Vy"
  | .andReg _ _ => "AND_Vx__Vy"
  | .xorReg _ _ => "XOR_Vx__Vy"
  | .addReg _ _ => "ADD_Vx__Vy"
  | .subReg _ _ => "SUB_Vx__Vy"
  | .shr _ _ => "SHR_Vx"
  | .subn _ _ => "SUBN_Vx__Vy"
  | .shl _ _ => "SHL_Vx"
  | .sneReg _ _ _ => "SNE_Vx__Vy"
  | .ldI _ => "LD_I__nnn"
  | .jpV0 _ => "JP_V0__nnn"
  | .rnd _ _ => "RND_Vx__kk"
  | .drw _ _ _ => "DRW_Vx__Vy__n"
  | .skp _ => "SKP_Vx"
  | .sknp _ => "SKNP_Vx"
  | .ldVxDt _ => "LD_Vx__DT"
  | .ldVxK _ => "LD_Vx__K"
  | .ldDtVx _ => "LD_DT__Vx"
  | .ldStVx _ => "LD_ST__Vx"
  | .addI _ => "ADD_I__Vx"
  | .ldF _ => "LD_F__Vx"
  | .ldB _ => "LD_B__Vx"
  | .storeRegs _ => "LD__I___Vx"
  | .loadRegs _ => "LD_Vx___I"

/-- The 16-bit word of an opcode-table word `w` of which the table gives the low `nbits` bits; every bit
above them is 0. -/
def tableWord (nbits w : Nat) : Word := BitVec.ofNat 16 (w % 2 ^ nbits)

/-- The instruction the decoder reads from the bytes of an opcode-table word. -/
def decodeTableWord (nbits w : Nat) : Option Instr :=
  (decode (bytesOfWord (tableWord nbits w))).1.instr?

end Sys2Proof
end

