-- ==== Sys2Proof/Machine/Fetch.lean ====
section
/-! DEFINITION. The front of a step (spec/40_pipeline.md R101 to R103): fetching the word at pc, the
fault of an illegal word, and placing a word where the next fetch reads it. -/

namespace Sys2Proof.Machine

/-- Fetch: two reads at the exact addresses `pc` and `pc + 1`, joined big-endian (R101). -/
def fetch (s : State) : Except FaultInfo Word :=
  match memRead s.mem s.pc.toNat with
  | .error e => .error e
  | .ok hi =>
    match memRead s.mem (s.pc.toNat + 1) with
    | .error e => .error e
    | .ok lo => .ok (wordOfBytes hi lo)

/-- The fault of a word the decoder rejects (R103). -/
def unknownWord (w : Word) (s : State) : Result := raise (.unknownInstruction w) s

/-- The address the next fetch can read a whole word at: pc, or the entry point where the fetch at pc
would fail (`pc ≥ 0xFFF`). -/
def fetchAddr (s : State) : Word :=
  if s.pc.toNat + 1 < Config.memSize then s.pc else Config.entry

/-- `s` made to fetch `w` next: the word's bytes at the fetch address, which pc holds, and the core
running. -/
def placeWord (s : State) (w : Word) : State :=
  { s with
    mem := s.mem.writeBytes (fetchAddr s).toNat (bytesOfWord w)
    pc := fetchAddr s
    status := .running }

end Sys2Proof.Machine
end

