-- ==== Sys2Proof/Machine/Step.lean ====
section
/-! DEFINITION. One `STEP` of the core (spec/40_pipeline.md R100, R108). -/

namespace Sys2Proof.Machine

/-- `STEP` (R108): refused on a halted core (R112); else fetch, decode, execute. A fault of any of the
three is a next state with status `Halted(E)` (R236). -/
def step (s : State) : Host.Outcome State Fault Refusal :=
  match s.status with
  | .halted _ => .refused .coreHalted
  | .running =>
    match fetch s with
    | .error e => raise e s
    | .ok w =>
      match decodeWord w with
      | .illegal _ => unknownWord w s
      | .instr i => exec i s

/-- `s` with the opcode-table word `w` of `nbits` bits where the next step fetches (log entry 7). -/
def State.withFetchWord (s : State) (nbits w : Nat) : State := placeWord s (tableWord nbits w)

end Sys2Proof.Machine
end

