-- ==== Sys2Proof/WellFormed.lean ====
section
/-! DEFINITION. What must hold of an input before it means anything.
EVERY TERM OF `Instr` IS WELL-FORMED: each operand's type is its field's exact width (R82), every value
of every field is allowed (R22, R91), and no rule relates one operand to another; so no check on an
instruction is left to write, and every statement about instructions holds for all of them.
The checks left are on what the HOST hands over: the bytes of a program (R262) and a key (R10, R212). -/

namespace Sys2Proof

/-- A program image `LOAD` accepts: `0x200 + len < 4096` (R262, R53): at most 3583 bytes. -/
def wellFormedImage (image : List Byte) : Bool :=
  decide (Config.entry.toNat + image.length < Config.memSize)

/-- A `SET_KEY` payload the interface accepts: `None`, or `Some k` with `k` in 0..15 (R10, D17). -/
def wellFormedKey : Option Nat → Bool
  | none => true
  | some k => decide (k < 16)

end Sys2Proof
end

