-- ==== Sys2Proof/Machine/HostPort.lean ====
section
/-! DEFINITION. The block's interface to its host, at transaction level (spec/00_scope.md R9): RESET,
LOAD, STEP, TICK, SET_KEY, FRAME and STATUS, each atomic and in the order the host gives (R8, R70). Which
LOADs are still allowed (R10, D18) is the session's own bit, beside the core's state. -/

namespace Sys2Proof.Machine

/-- A timer one `TICK` later: one less, never below 0 (R210). -/
def countDown (t : Byte) : Byte := if t = 0x00#8 then t else t - 1#8

/-- `TICK` (R210): both timers, nothing else, in every status (R112). -/
def State.tick (s : State) : State := (s.setDt (countDown s.dt)).setSt (countDown s.st)

/-- `SET_KEY` (R212): replaces the latch, in every status; a key of 16 or more is refused (R10, D17). -/
def State.setKey (s : State) (k : Option Nat) : Result :=
  match k with
  | none => .next (s.setLatch none)
  | some k => if wellFormedKey (some k) then .next (s.setLatch (some (BitVec.ofNat 4 k)))
      else .refused (.keyOutOfRange k)

/-- `LOAD` (R262): one write of the image at 0x200; if it does not fit, `OutOfBounds` and no change, the
status neither. -/
def State.load (s : State) (image : List Byte) : Result :=
  match memWrite s.mem Config.entry.toNat image with
  | .error _ => .fault (.loadOutOfBounds Config.entry.toNat)
  | .ok m => .next (s.setMem m)

/-- `FRAME` (R194): 2048 bytes, one per pixel, each 0 or 1, row-major. -/
def State.frame (s : State) : List Byte :=
  (List.range 2048).map fun p => if dispBit s.disp p then 0x01#8 else 0x00#8

/-- The numeric code of a fault kind (R231, D15). -/
def FaultInfo.code : FaultInfo → Nat
  | .outOfBounds _ => 1
  | .stackOverflow => 2
  | .stackUnderflow => 3
  | .unknownInstruction _ => 4

/-- A host action (R9). -/
inductive HostAction where
  | reset
  | load (image : List Byte)
  | step
  | tick
  | setKey (k : Option Nat)
  | frame
  | status
deriving DecidableEq, Repr

/-- What the block answers (R9). -/
inductive Response where
  | ok
  /-- `STEP` ended with this fault. -/
  | stepFault (r : FaultRecord)
  /-- `LOAD` failed. -/
  | loadFault (r : Fault)
  /-- The action is not taken and nothing changes. -/
  | refused (r : Refusal)
  | frame (bytes : List Byte)
  | status (r : Status)
deriving DecidableEq, Repr

/-- The core with its host: whether `LOAD` is still allowed (R10: once, after `RESET` and before the first
`STEP`). -/
structure Session where
  core     : State
  loadOpen : Bool
deriving DecidableEq, Repr

/-- `RESET` builds a new machine (R260); the draws go on, since nothing says that the random generator
repeats itself (D13 `RESET_RNG`; log entry 2). -/
def State.afterReset (s : State) : State := State.reset.setDraws s.draws

/-- The answer to a `STEP` that is not refused: `Ok`, or the fault it ended with (R9, R235). -/
def stepResponse (s : State) : Response :=
  match s.status with
  | .running => .ok
  | .halted r => .stepFault r

/-- The `STEP` action. -/
def Session.actStep (h : Session) : Response × Session :=
  match Machine.step h.core with
  | .next s => (stepResponse s, ⟨s, false⟩)
  | .fault r => (.loadFault r, h)
  | .refused r => (.refused r, h)

/-- The `LOAD` action (R10, R262). -/
def Session.actLoad (h : Session) (image : List Byte) : Response × Session :=
  if h.loadOpen then
    match h.core.load image with
    | .next s => (.ok, ⟨s, false⟩)
    | .fault r => (.loadFault r, h)
    | .refused r => (.refused r, h)
  else (.refused .loadClosed, h)

/-- The `SET_KEY` action. -/
def Session.actKey (h : Session) (k : Option Nat) : Response × Session :=
  match h.core.setKey k with
  | .next s => (.ok, ⟨s, h.loadOpen⟩)
  | .fault r => (.loadFault r, h)
  | .refused r => (.refused r, h)

/-- One host action: the response and the session after it (R9, R70). -/
def Session.act (h : Session) : HostAction → Response × Session
  | .reset => (.ok, ⟨h.core.afterReset, true⟩)
  | .load image => h.actLoad image
  | .step => h.actStep
  | .tick => (.ok, ⟨h.core.tick, h.loadOpen⟩)
  | .setKey k => h.actKey k
  | .frame => (.frame h.core.frame, h)
  | .status => (.status h.core.status, h)

/-- The session a list of host actions leads to, in order (R8). -/
def Session.run (h : Session) : List HostAction → Session
  | [] => h
  | a :: as => (h.act a).2.run as

/-- A machine just built: reset, nothing loaded. -/
def Session.start : Session := ⟨State.reset, true⟩

end Sys2Proof.Machine
end

