-- ==== Sys2Proof/Safety.lean ====
section
/-! DEFINITION. The terms claims are stated in: what a step leaves unchanged, the invariant of the machine,
a safe state, and reference descriptions of a sprite and of the spec's register table (spec/10_state.md
R23), written apart from the meanings. -/

namespace Sys2Proof

/-- Whether an instruction may write a general register: the table of R23, VF as a flag included. -/
def Instr.writesReg : Instr → Nibble → Bool
  | .cls _, _ => false
  | .ret _, _ => false
  | .jp _, _ => false
  | .call _, _ => false
  | .seImm _ _, _ => false
  | .sneImm _ _, _ => false
  | .seReg _ _ _, _ => false
  | .sneReg _ _ _, _ => false
  | .ldI _, _ => false
  | .jpV0 _, _ => false
  | .skp _, _ => false
  | .sknp _, _ => false
  | .ldDtVx _, _ => false
  | .ldStVx _, _ => false
  | .addI _, _ => false
  | .ldF _, _ => false
  | .ldB _, _ => false
  | .storeRegs _, _ => false
  | .ldImm x _, r => r == x
  | .addImm x _, r => r == x
  | .ldReg x _, r => r == x
  | .orReg x _, r => r == x
  | .andReg x _, r => r == x
  | .xorReg x _, r => r == x
  | .rnd x _, r => r == x
  | .ldVxDt x, r => r == x
  | .ldVxK x, r => r == x
  | .addReg x _, r => r == x || r == 0xF#4
  | .subReg x _, r => r == x || r == 0xF#4
  | .subn x _, r => r == x || r == 0xF#4
  | .shr x _, r => r == x || r == 0xF#4
  | .shl x _, r => r == x || r == 0xF#4
  | .drw _ _ _, r => r == 0xF#4
  | .loadRegs x, r => decide (r.toNat ≤ x.toNat)

namespace Machine

/-- The pieces of State. -/
inductive Field where
  | v | i | pc | dt | st | stack | mem | disp | latch | status | draws
deriving DecidableEq, Repr

/-- A piece of state is the same in two states: registers, memory and pixels read one by one. -/
def Field.unchanged : Field → State → State → Prop
  | .v, s, t => ∀ r, t.readV r = s.readV r
  | .i, s, t => t.i = s.i
  | .pc, s, t => t.pc = s.pc
  | .dt, s, t => t.dt = s.dt
  | .st, s, t => t.st = s.st
  | .stack, s, t => t.stack = s.stack
  | .mem, s, t => ∀ a, t.mem.read a = s.mem.read a
  | .disp, s, t => ∀ col row, pixel t.disp col row = pixel s.disp col row
  | .latch, s, t => t.latch = s.latch
  | .status, s, t => t.status = s.status
  | .draws, s, t => t.draws = s.draws

/-- Nothing but the listed pieces of state differs between `s` and `t`. -/
def OnlyChanges (fs : List Field) (s t : State) : Prop := ∀ f, f ∉ fs → f.unchanged s t

/-- No general register but the listed ones differs. -/
def OnlyRegs (rs : List Nibble) (s t : State) : Prop := ∀ r, r ∉ rs → t.readV r = s.readV r

/-- No byte of memory but the `n` from address `a` on differs. -/
def OnlyBytes (a n : Nat) (s t : State) : Prop :=
  ∀ b, ¬ (a ≤ b ∧ b < a + n) → t.mem.read b = s.mem.read b

/-- The pieces of state an instruction may change (R21 to R41: the rules that say what writes each), the
status among them where it can fault (R232), the draw counter where it draws a free value. -/
def writesFields : Instr → List Field
  | .cls _ => [.disp, .pc]
  | .ret _ => [.pc, .stack, .status]
  | .jp _ => [.pc]
  | .call _ => [.pc, .stack, .status]
  | .seImm _ _ => [.pc]
  | .sneImm _ _ => [.pc]
  | .seReg _ _ _ => [.pc]
  | .ldImm _ _ => [.v, .pc]
  | .addImm _ _ => [.v, .pc]
  | .ldReg _ _ => [.v, .pc]
  | .orReg _ _ => [.v, .pc]
  | .andReg _ _ => [.v, .pc]
  | .xorReg _ _ => [.v, .pc]
  | .addReg _ _ => [.v, .pc]
  | .subReg _ _ => [.v, .pc]
  | .shr _ _ => [.v, .pc]
  | .subn _ _ => [.v, .pc]
  | .shl _ _ => [.v, .pc]
  | .sneReg _ _ _ => [.pc]
  | .ldI _ => [.i, .pc]
  | .jpV0 _ => [.pc]
  | .rnd _ _ => [.v, .pc, .draws]
  | .drw _ _ _ => [.v, .pc, .disp, .status, .draws]
  | .skp _ => [.pc]
  | .sknp _ => [.pc]
  | .ldVxDt _ => [.v, .pc]
  | .ldVxK _ => [.v, .pc]
  | .ldDtVx _ => [.dt, .pc]
  | .ldStVx _ => [.st, .pc]
  | .addI _ => [.i, .pc]
  | .ldF _ => [.i, .pc]
  | .ldB _ => [.mem, .pc, .status]
  | .storeRegs _ => [.mem, .i, .pc, .status]
  | .loadRegs _ => [.v, .i, .pc, .status, .draws]

/-! ## Sprites -/

/-- Which column of a sprite drawn at column `cx` falls on a display column; 8 and more is none. -/
def spriteCol (cx col : Nat) : Nat := (col % 64 + 64 - cx % 64) % 64

/-- Which row of a sprite drawn at row `cy` falls on a display row. -/
def spriteRow (cy row : Nat) : Nat := (row % 32 + 32 - cy % 32) % 32

/-- The bit that a sprite of `n` rows at `(cx, cy)`, its bytes at `base`, has over a pixel: 0 outside the
sprite. Bit 7 of a byte is its leftmost column (R192). -/
def spriteAt (m : Memory) (base cx cy n col row : Nat) : Bool :=
  decide (spriteRow cy row < n) && decide (spriteCol cx col < 8) &&
    (m.read (base + spriteRow cy row)).getLsbD (7 - spriteCol cx col)

/-! ## The stack as a whole -/

/-- Pushes in order, stopped by the first that fails. -/
def pushAll (s : State) : List Word → Except FaultInfo State
  | [] => .ok s
  | a :: as =>
    match push s a with
    | .error e => .error e
    | .ok s' => pushAll s' as

/-- Pops, `n` of them, with the values in the order they came. -/
def popAll (s : State) : Nat → Except FaultInfo (List Word × State)
  | 0 => .ok ([], s)
  | n + 1 =>
    match pop s with
    | .error e => .error e
    | .ok (a, s') =>
      match popAll s' n with
      | .error e => .error e
      | .ok (as, t) => .ok (a :: as, t)

/-- `n` timer ticks. -/
def ticks (s : State) : Nat → State
  | 0 => s
  | n + 1 => ticks s.tick n

/-! ## The invariant and safe states -/

/-- What every step keeps. -/
structure State.Inv (s : State) : Prop where
  /-- Memory is in canonical form. -/
  memWf : s.mem.wf = true
  /-- Address 0xFFF is never written (R54). -/
  topByte : s.mem.read 0xFFF = 0x00#8
  /-- The stack holds at most 16 entries (R32). -/
  depth : s.stack.length ≤ 16
  /-- Every entry is the address after a CALL (R25). -/
  entries : ∀ a ∈ s.stack, 2 ≤ a.toNat ∧ a.toNat ≤ 0x1000
  /-- The values pc can take (R25). -/
  pcBound : s.pc.toNat ≤ 0x10FE
  /-- A halted core stands at the instruction that faulted (R233, R236). -/
  haltedHere : ∀ r, s.status = .halted r → r.pc = s.pc

/-- A run is safe while the core runs: `Halted(E)` is a fault, never a success (R271). -/
def State.safe (s : State) : Bool :=
  match s.status with
  | .running => true
  | .halted _ => false

/-- The next state an answer holds, if any. -/
def nextState? : Result → Option State
  | .next s => some s
  | .fault _ => none
  | .refused _ => none

end Machine
end Sys2Proof
end

