-- ==== Sys2Proof/Certificates/Slice0/Obligations.lean ====
section
/-! DEFINITION. The statements about the model. A statement marked "model's choice" rests on a decision the
spec marks as its own (92_eei_decisions.md Dn) or on an entry of notes/assumptions. -/

open Sys2Proof Sys2Proof.Machine

/-! ## Reset, the invariant, the host -/

/-- The state after RESET (spec/10_state.md R36, R43): pc, font, I and the clear display as the source has
them; the zeros of V, DT, ST, of memory above the font, the empty stack and latch and the status are the
spec's own choice (D13, D15; log entry 5), the font bytes D14 (log entry 6). The host action RESET leaves that
state from every session, halted ones among them (R236, R237, R260), but for the model's own draw counter,
which goes on (log entry 2), and opens LOAD again (R10, D18; log entry 8); that it is answered Ok, where R9
gives no response but the core in its reset state, is log entry 29. -/
def Obligations.ResetStateIsTheSpecs : Prop :=
  State.reset.pc = 0x200#16 ∧ State.reset.i = 0x0000#16 ∧
  (∀ col row, pixel State.reset.disp col row = false) ∧
  (List.range 80).map State.reset.mem.read =
    [0xF0, 0x90, 0x90, 0x90, 0xF0, 0x20, 0x60, 0x20, 0x20, 0x70,
     0xF0, 0x10, 0xF0, 0x80, 0xF0, 0xF0, 0x10, 0xF0, 0x10, 0xF0,
     0x90, 0x90, 0xF0, 0x10, 0x10, 0xF0, 0x80, 0xF0, 0x10, 0xF0,
     0xF0, 0x80, 0xF0, 0x90, 0xF0, 0xF0, 0x10, 0x20, 0x40, 0x40,
     0xF0, 0x90, 0xF0, 0x90, 0xF0, 0xF0, 0x90, 0xF0, 0x10, 0xF0,
     0xF0, 0x90, 0xF0, 0x90, 0x90, 0xE0, 0x90, 0xE0, 0x90, 0xE0,
     0xF0, 0x80, 0x80, 0x80, 0xF0, 0xE0, 0x90, 0x90, 0x90, 0xE0,
     0xF0, 0x80, 0xF0, 0x80, 0xF0, 0xF0, 0x80, 0xF0, 0x80, 0x80] ∧
  (∀ a, 0x050 ≤ a → State.reset.mem.read a = 0x00#8) ∧
  (∀ r, State.reset.readV r = 0x00#8) ∧
  State.reset.dt = 0x00#8 ∧ State.reset.st = 0x00#8 ∧
  State.reset.stack = [] ∧ State.reset.latch = none ∧ State.reset.status = .running ∧
  (∀ h : Session, ∃ t, h.act .reset = (.ok, ⟨t, true⟩) ∧ OnlyChanges [.draws] State.reset t ∧
    t.draws = h.core.draws)

/-- The invariant holds after RESET. That memory is in canonical form is the model's own representation (log
entry 5); the empty stack and the 0x00 at 0xFFF are the spec's own choice (D13), the status D15. -/
def Obligations.ResetMeetsTheMachineInvariant : Prop := State.reset.Inv

/-- From every state with the invariant a step leads to one with it: memory stays canonical, 0xFFF stays
0x00 (R54), the stack holds at most 16 entries, each in 0x002..0x1000, pc is at most 0x10FE (R25), and a
halted core stands at the instruction that faulted (R236). The canonical form is the model's own representation
(log entry 5); the 0x00 at 0xFFF rests on the reset value D13 chooses, the record of a halted core on D15. -/
def Obligations.StepKeepsTheMachineInvariant : Prop :=
  ∀ s t, s.Inv → step s = .next t → t.Inv

/-- Every host action of R9 keeps the invariant of the core. That memory stays canonical is the model's own
representation (log entry 5); the values RESET restores are D13's, the record of a halted core D15's, and when
LOAD is taken D18's (log entry 8). -/
def Obligations.HostActionsKeepTheMachineInvariant : Prop :=
  ∀ (h : Session) (a : HostAction), h.core.Inv → (h.act a).2.core.Inv

/-- With no program loaded the first step fetches 0x0000 and halts (R264). -/
def Obligations.StepOfTheResetStateHaltsOnTheZeroWord : Prop :=
  ∃ t, step State.reset = .next t ∧
    t.status = .halted ⟨.unknownInstruction 0x0000#16, 0x200#16⟩ ∧ OnlyChanges [.status] State.reset t

/-- TICK: each timer one less while above 0, nothing else, in every status (R210); the host action TICK leaves
that core. Its response and the open LOAD are in TimersAfterManyTicks. -/
def Obligations.TickCountsEachTimerDownToZero : Prop :=
  (∀ s : State,
    (0 < s.dt.toNat → s.tick.dt.toNat = s.dt.toNat - 1) ∧ (s.dt.toNat = 0 → s.tick.dt.toNat = 0) ∧
    (0 < s.st.toNat → s.tick.st.toNat = s.st.toNat - 1) ∧ (s.st.toNat = 0 → s.tick.st.toNat = 0) ∧
    OnlyChanges [.dt, .st] s s.tick) ∧
  (∀ h : Session, (h.act .tick).2.core = h.core.tick)

/-- After `k` TICKs a timer holds `max(0, v - k)` (R211; subtraction of naturals stops at 0). The host action
TICK is that tick (R9, R210), and `k` of them in a row are `k` ticks; that it is answered Ok where R9 gives no
response is log entry 29, and that it leaves LOAD as open as it was log entry 8. -/
def Obligations.TimersAfterManyTicks : Prop :=
  (∀ (s : State) (k : Nat),
    (ticks s k).dt.toNat = s.dt.toNat - k ∧ (ticks s k).st.toNat = s.st.toNat - k ∧
    OnlyChanges [.dt, .st] s (ticks s k)) ∧
  (∀ h : Session, h.act .tick = (.ok, ⟨h.core.tick, h.loadOpen⟩) ∧
    ∀ k, h.run (List.replicate k .tick) = ⟨ticks h.core k, h.loadOpen⟩)

/-- SET_KEY replaces the latch and nothing else (R212); a key of 16 or more is refused (R10, the spec's
own choice D17). The host action SET_KEY does the same to its core (R9), answers Ok, or that refusal with the
session exactly as it was, and leaves LOAD as open as it was (the Ok is log entry 29, LOAD log entry 8). -/
def Obligations.SetKeyReplacesTheLatch : Prop :=
  ∀ s : State,
    (∃ t, s.setKey none = .next t ∧ t.latch = none ∧ OnlyChanges [.latch] s t) ∧
    (∀ k : Nat, k < 16 → ∃ t j, s.setKey (some k) = .next t ∧ t.latch = some j ∧ j.toNat = k ∧
      OnlyChanges [.latch] s t) ∧
    (∀ k : Nat, 16 ≤ k → s.setKey (some k) = .refused (.keyOutOfRange k)) ∧
    ∀ o : Bool,
      (∃ t, Session.act ⟨s, o⟩ (.setKey none) = (.ok, ⟨t, o⟩) ∧ t.latch = none ∧
        OnlyChanges [.latch] s t) ∧
      (∀ k : Nat, k < 16 → ∃ t j, Session.act ⟨s, o⟩ (.setKey (some k)) = (.ok, ⟨t, o⟩) ∧
        t.latch = some j ∧ j.toNat = k ∧ OnlyChanges [.latch] s t) ∧
      (∀ k : Nat, 16 ≤ k →
        Session.act ⟨s, o⟩ (.setKey (some k)) = (.refused (.keyOutOfRange k), ⟨s, o⟩))

/-- LOAD, while it is open, writes the image from 0x200 on and nothing else, and is then closed; an image of
3584 bytes or more answers OutOfBounds and changes nothing (R262; the closing is D18, the model's choice of
where to hold it is log entry 8). -/
def Obligations.LoadWritesTheImageAtTheEntry : Prop :=
  ∀ (s : State) (image : List Byte),
    (image.length ≤ 3583 → ∃ t, Session.act ⟨s, true⟩ (.load image) = (.ok, ⟨t, false⟩) ∧
      (∀ k (h : k < image.length), t.mem.read (0x200 + k) = image[k]) ∧
      OnlyBytes 0x200 image.length s t ∧ OnlyChanges [.mem] s t) ∧
    (3584 ≤ image.length →
      Session.act ⟨s, true⟩ (.load image) = (.loadFault (.loadOutOfBounds 0x200), ⟨s, true⟩)) ∧
    Session.act ⟨s, false⟩ (.load image) = (.refused .loadClosed, ⟨s, false⟩)

/-- FRAME: 2048 bytes, one per pixel, 0 or 1, row-major; reading it changes nothing (R194). -/
def Obligations.FrameIsTheDisplayRowByRow : Prop :=
  ∀ h : Session,
    h.act .frame = (.frame h.core.frame, h) ∧ h.core.frame.length = 2048 ∧
    ∀ col row, col < 64 → row < 32 →
      h.core.frame[row * 64 + col]? = some (if pixel h.core.disp col row then 0x01#8 else 0x00#8)

/-! ## The step -/

/-- The fetched word has the byte at `pc` as its high byte and the byte at `pc + 1` as its low byte
(R81). -/
def Obligations.FetchIsBigEndian : Prop :=
  ∀ s : State, s.pc.toNat ≤ 0xFFE → ∃ w, fetch s = .ok w ∧
    w.toNat = 256 * (s.mem.read s.pc.toNat).toNat + (s.mem.read (s.pc.toNat + 1)).toNat

/-- A step runs the decoded instruction: when the two bytes at pc decode to `i`, the step is exec of `i` at
that state (R108). -/
def Obligations.StepRunsTheDecodedInstruction : Prop :=
  ∀ (s : State) (i : Instr), s.status = .running → s.pc.toNat ≤ 0xFFE →
    decodeWord (wordOfBytes (s.mem.read s.pc.toNat) (s.mem.read (s.pc.toNat + 1))) = .instr i →
    step s = exec i s

/-- A word the decoder rejects halts the core with UnknownInstruction, the word and the pc recorded, and
changes nothing else (R103, R236; the record and the status are the spec's own choice, D15). -/
def Obligations.StepOnAnIllegalWordHaltsUnchanged : Prop :=
  ∀ (s : State) (r : Reject), s.status = .running → s.pc.toNat ≤ 0xFFE →
    decodeWord (wordOfBytes (s.mem.read s.pc.toNat) (s.mem.read (s.pc.toNat + 1))) = .illegal r →
    ∃ t, step s = .next t ∧
      t.status = .halted ⟨.unknownInstruction
        (wordOfBytes (s.mem.read s.pc.toNat) (s.mem.read (s.pc.toNat + 1))), s.pc⟩ ∧
      OnlyChanges [.status] s t

/-- A fetch at `pc ≥ 0xFFF` halts the core with OutOfBounds of the first address that does not exist, and
changes nothing else (R101, R236; exact addresses and the record are D10 and D15). -/
def Obligations.StepPastMemoryHaltsUnchanged : Prop :=
  ∀ s : State, s.status = .running → 0xFFF ≤ s.pc.toNat →
    ∃ t, step s = .next t ∧
      t.status = .halted ⟨.outOfBounds (if s.pc.toNat = 0xFFF then 0x1000 else s.pc.toNat), s.pc⟩ ∧
      OnlyChanges [.status] s t

/-- STEP on a halted core is refused, the host's STEP too, which changes nothing (R112), and no host action but
RESET leaves Halted or changes its record (R236, R237). STATUS answers Halted with the record and changes
nothing (R9, R39), and the four kinds have the codes 1 to 4 (R231). All of it is the spec's own choice D15. What
RESET leaves is in ResetStateIsTheSpecs. -/
def Obligations.StepOnAHaltedCoreIsRefused : Prop :=
  (∀ (s : State) (r : FaultRecord), s.status = .halted r →
    step s = .refused .coreHalted ∧
    ∀ o : Bool, Session.act ⟨s, o⟩ .step = (.refused .coreHalted, ⟨s, o⟩) ∧
      Session.act ⟨s, o⟩ .status = (.status (.halted r), ⟨s, o⟩) ∧
      ∀ a : HostAction, a ≠ .reset → (Session.act ⟨s, o⟩ a).2.core.status = .halted r) ∧
  (∀ a, (FaultInfo.outOfBounds a).code = 1) ∧ FaultInfo.stackOverflow.code = 2 ∧
  FaultInfo.stackUnderflow.code = 3 ∧ (∀ w, (FaultInfo.unknownInstruction w).code = 4)

/-- Every instruction answers a next state on every state, and a running core always takes its step: no word
and no state of the machine makes it answer a fault or a refusal of the model. That a fault of the core is a
next state, with status halted, is log entry 1. The host's STEP on a running core takes that step, answers Ok,
or the recorded fault if the step ended with one (R9, R235), and closes LOAD (R10, D18; log entry 8). STATUS
answers the status, Running on a running core, and changes nothing (R9, R39; the status is D15's). -/
def Obligations.ARunningCoreAlwaysTakesItsStep : Prop :=
  (∀ (i : Instr) (s : State), ∃ t, exec i s = .next t) ∧
  (∀ s : State, s.status = .running → ∃ t, step s = .next t) ∧
  (∀ h : Session, h.core.status = .running → ∃ t, step h.core = .next t ∧
    (h.act .step).2 = ⟨t, false⟩ ∧ (t.status = .running → (h.act .step).1 = .ok) ∧
    (∀ r, t.status = .halted r → (h.act .step).1 = .stepFault r)) ∧
  (∀ h : Session, h.act .status = (.status h.core.status, h))

/-- A word placed for the next fetch is the one the next step runs, in every state; on a running core that
can fetch, placing it changes only the two bytes at pc (the model's own harness, log entry 7). -/
def Obligations.APlacedWordIsTheNextInstruction : Prop :=
  ∀ (s : State) (w : Word) (i : Instr), decodeWord w = .instr i →
    decodeTableWord 16 w.toNat = some i ∧
    step (s.withFetchWord 16 w.toNat) = exec i (s.withFetchWord 16 w.toNat) ∧
    (s.status = .running → s.pc.toNat ≤ 0xFFE →
      OnlyChanges [.mem] s (s.withFetchWord 16 w.toNat) ∧
      OnlyBytes s.pc.toNat 2 s (s.withFetchWord 16 w.toNat))

/-! ## Encoding -/

/-- Words written out from the patterns of R86, one or more per family, decode to what they stand for. -/
def Obligations.WordsOfTheOpcodeMapDecode : Prop :=
  decodeWord 0x0F0E#16 = .instr (.cls 0xF) ∧ decodeWord 0x00EE#16 = .instr (.ret 0x0) ∧
  decodeWord 0x1ABC#16 = .instr (.jp 0xABC) ∧ decodeWord 0x5AB7#16 = .instr (.seReg 0xA 0xB 0x7) ∧
  decodeWord 0x7302#16 = .instr (.addImm 0x3 0x02) ∧ decodeWord 0x8AB7#16 = .instr (.subn 0xA 0xB) ∧
  decodeWord 0xD12F#16 = .instr (.drw 0x1 0x2 0xF) ∧ decodeWord 0xE19E#16 = .instr (.skp 0x1) ∧
  decodeWord 0xF365#16 = .instr (.loadRegs 0x3) ∧ decodeWord 0x00E0#16 = .illegal (.family0 0x00E0)

/-- Decoding the bytes of any instruction gives it back, whatever bytes follow: no bit of an operand is
dropped. The nibbles the decoder ignores (R91, D2) are fields of the constructors, the model's own choice (log
entry 9). -/
def Obligations.DecodeAfterEncodeReturnsTheInstruction : Prop :=
  ∀ (i : Instr) (rest : List Byte), decode (encodeBytes i ++ rest) = (.instr i, rest)

/-- Encoding what a word decodes to gives the word back. It holds because the constructors keep the nibbles
the decoder ignores as fields, the model's own choice (log entry 9): two words that differ in such a nibble
only, as 0x00EE and 0x05EE, are one instruction of the spec (R91, D2) and two terms of `Instr`. -/
def Obligations.EncodeAfterDecodeReturnsTheWord : Prop :=
  ∀ (w : Word) (i : Instr), decodeWord w = .instr i → encode i = w

/-- The decoder against the opcode map of R86: a word that decodes is covered by the one row with the
instruction's mnemonic, which the map has, and by no other; a word that is rejected is covered by no row (R92,
R94); no word is covered by two rows. -/
def Obligations.DecoderAgreesWithTheOpcodeMap : Prop :=
  ∀ w : Word,
    (∀ i, decodeWord w = .instr i →
      (∃ row ∈ opcodeMap, row.mnemonic = mnemonic i ∧ row.covers w = true) ∧
      ∀ row ∈ opcodeMap, row.covers w = true ↔ row.mnemonic = mnemonic i) ∧
    (∀ r, decodeWord w = .illegal r → ∀ row ∈ opcodeMap, row.covers w = false) ∧
    (∀ row ∈ opcodeMap, ∀ row' ∈ opcodeMap, row.covers w = true → row'.covers w = true → row = row')

/-- Family 0 of the dispatch ROM: CLS for `kk` = 0x0E, RET for 0xEE, every other `kk` illegal, whatever `x` is
(R87, R92; the value of `CLS_KK` and the ignored nibble are the spec's own choices D1 and D2, log entry 4). -/
def Obligations.FamilyZeroDecodesClsAndRetOnly : Prop :=
  ∀ (x : Nibble) (kk : Byte), decodeWord (0x0#4 ++ x ++ kk) =
    if kk = 0x0E#8 then .instr (.cls x) else if kk = 0xEE#8 then .instr (.ret x)
    else .illegal (.family0 (0x0#4 ++ x ++ kk))

/-- The second levels of the dispatch ROM for families 8, E and F (R88 to R90): by `n`, and by `kk`, with every
other selector illegal. -/
def Obligations.SecondLevelsOfTheDispatchRom : Prop :=
  (∀ x y n : Nibble, decodeWord (0x8#4 ++ x ++ y ++ n) =
    if n = 0x0#4 then .instr (.ldReg x y) else if n = 0x1#4 then .instr (.orReg x y)
    else if n = 0x2#4 then .instr (.andReg x y) else if n = 0x3#4 then .instr (.xorReg x y)
    else if n = 0x4#4 then .instr (.addReg x y) else if n = 0x5#4 then .instr (.subReg x y)
    else if n = 0x6#4 then .instr (.shr x y) else if n = 0x7#4 then .instr (.subn x y)
    else if n = 0xE#4 then .instr (.shl x y) else .illegal (.family8 (0x8#4 ++ x ++ y ++ n))) ∧
  (∀ (x : Nibble) (kk : Byte), decodeWord (0xE#4 ++ x ++ kk) =
    if kk = 0x9E#8 then .instr (.skp x) else if kk = 0xA1#8 then .instr (.sknp x)
    else .illegal (.familyE (0xE#4 ++ x ++ kk))) ∧
  (∀ (x : Nibble) (kk : Byte), decodeWord (0xF#4 ++ x ++ kk) =
    if kk = 0x07#8 then .instr (.ldVxDt x) else if kk = 0x0A#8 then .instr (.ldVxK x)
    else if kk = 0x15#8 then .instr (.ldDtVx x) else if kk = 0x18#8 then .instr (.ldStVx x)
    else if kk = 0x1E#8 then .instr (.addI x) else if kk = 0x29#8 then .instr (.ldF x)
    else if kk = 0x33#8 then .instr (.ldB x) else if kk = 0x55#8 then .instr (.storeRegs x)
    else if kk = 0x65#8 then .instr (.loadRegs x) else .illegal (.familyF (0xF#4 ++ x ++ kk)))

/-! ## Memory and stack -/

/-- The memory controller (R52, R53): a read below 4096 gives the byte, one at or above it OutOfBounds; a
write with `addr + n < 4096` puts every byte in place and touches no other address, one at or past that
bound writes nothing. -/
def Obligations.MemoryControllerReadsBackWhatItWrote : Prop :=
  ∀ (m : Memory) (a : Nat) (d : List Byte),
    (a < 4096 → memRead m a = .ok (m.read a)) ∧
    (4096 ≤ a → memRead m a = .error (.outOfBounds a)) ∧
    (a + d.length < 4096 → ∃ m', memWrite m a d = .ok m' ∧
      (∀ k (h : k < d.length), memRead m' (a + k) = .ok d[k]) ∧
      (∀ b, ¬ (a ≤ b ∧ b < a + d.length) → m'.read b = m.read b)) ∧
    (4096 ≤ a + d.length → memWrite m a d = .error (.outOfBounds a))

/-- Two memories in canonical form that read the same everywhere are the same list (the model's own
representation, log entry 5). -/
def Obligations.CanonicalMemoriesThatReadAlikeAreEqual : Prop :=
  ∀ m m' : Memory, m.wf = true → m'.wf = true → (∀ a, m.read a = m'.read a) → m = m'

/-- No instruction writes address 0xFFF (R54). -/
def Obligations.NoInstructionWritesTheTopByte : Prop :=
  ∀ (i : Instr) (s t : State), exec i s = .next t → t.mem.read 0xFFF = s.mem.read 0xFFF

/-- The stack controller (R58 to R60): pushes that fit all succeed and popping as often returns them in
reverse order and leaves the stack as it was; a push at depth 16 and a pop of nothing fail. -/
def Obligations.StackIsLastInFirstOut : Prop :=
  (∀ (s : State) (as : List Word), s.stack.length + as.length ≤ 16 →
    ∃ t, pushAll s as = .ok t ∧ t.stack = s.stack ++ as ∧
      popAll t as.length = .ok (as.reverse, s)) ∧
  (∀ (s : State) (a : Word), s.stack.length = 16 → push s a = .error .stackOverflow) ∧
  (∀ s : State, s.stack = [] → pop s = .error .stackUnderflow)

/-! ## Control transfer -/

/-- JP nnn and LD I, nnn: pc, or `I`, becomes `nnn`, zero-extended; nothing else changes but the pc's advance
(R121, R170). -/
def Obligations.JumpAndLoadIndexTakeTheImmediate : Prop :=
  ∀ (nnn : Imm12) (s : State),
    (∃ t, exec (.jp nnn) s = .next t ∧ t.pc.toNat = nnn.toNat ∧ OnlyChanges [.pc] s t) ∧
    (∃ t, exec (.ldI nnn) s = .next t ∧ t.i.toNat = nnn.toNat ∧ t.pc = s.pc + 2#16 ∧
      OnlyChanges [.i, .pc] s t)

/-- JP V0, nnn: pc becomes the exact sum, which never wraps (R127; no reduction modulo 4096 is the spec's
own choice D9). -/
def Obligations.JumpWithOffsetSetsThePcToTheSum : Prop :=
  ∀ (nnn : Imm12) (s : State), ∃ t, exec (.jpV0 nnn) s = .next t ∧
    t.pc.toNat = nnn.toNat + (s.readV 0x0#4).toNat ∧ OnlyChanges [.pc] s t

/-- CALL nnn with room on the stack: `pc + 2` is pushed and pc becomes `nnn` (R122). -/
def Obligations.CallPushesTheReturnAddress : Prop :=
  ∀ (nnn : Imm12) (s : State), s.stack.length < 16 → ∃ t, exec (.call nnn) s = .next t ∧
    t.stack = s.stack ++ [s.pc + 2#16] ∧ t.pc.toNat = nnn.toNat ∧ OnlyChanges [.pc, .stack] s t

/-- RET: the top of the stack is removed and becomes pc, no 2 added (R120). -/
def Obligations.ReturnPopsThePc : Prop :=
  ∀ (u : Nibble) (s : State) (as : List Word) (a : Word), s.stack = as ++ [a] →
    ∃ t, exec (.ret u) s = .next t ∧ t.pc = a ∧ t.stack = as ∧ OnlyChanges [.pc, .stack] s t

/-- CALL at depth 16 and RET on an empty stack halt the core with their fault and change nothing else (R120,
R122, R236; status and record are the spec's own choice D15). -/
def Obligations.StackFaultsHaltUnchanged : Prop :=
  (∀ (nnn : Imm12) (s : State), s.stack.length = 16 → ∃ t, exec (.call nnn) s = .next t ∧
    t.status = .halted ⟨.stackOverflow, s.pc⟩ ∧ OnlyChanges [.status] s t) ∧
  (∀ (u : Nibble) (s : State), s.stack = [] → ∃ t, exec (.ret u) s = .next t ∧
    t.status = .halted ⟨.stackUnderflow, s.pc⟩ ∧ OnlyChanges [.status] s t)

/-- A RET after a CALL, with the stack as the CALL left it, goes to the instruction after the CALL and leaves
the stack as it was before it (source §8; R120, R122). -/
def Obligations.ReturnAfterCallComesBack : Prop :=
  ∀ (nnn : Imm12) (u : Nibble) (s : State), s.stack.length < 16 →
    ∃ t, exec (.call nnn) s = .next t ∧
      ∀ t' : State, t'.stack = t.stack → ∃ t'', exec (.ret u) t' = .next t'' ∧
        t''.pc = s.pc + 2#16 ∧ t''.stack = s.stack

/-- SE Vx, kk and SNE Vx, kk: pc + 4 when the condition holds, else pc + 2, and nothing else (R123,
R124). -/
def Obligations.SkipsOnAnImmediate : Prop :=
  ∀ (x : Nibble) (kk : Byte) (s : State),
    (∃ t, exec (.seImm x kk) s = .next t ∧ OnlyChanges [.pc] s t ∧
      t.pc = if s.readV x = kk then s.pc + 4#16 else s.pc + 2#16) ∧
    (∃ t, exec (.sneImm x kk) s = .next t ∧ OnlyChanges [.pc] s t ∧
      t.pc = if s.readV x ≠ kk then s.pc + 4#16 else s.pc + 2#16)

/-- SE Vx, Vy and SNE Vx, Vy, for every value of the low nibble (R125, R126; that it is ignored is the
spec's own choice D2). -/
def Obligations.SkipsOnRegisters : Prop :=
  ∀ (x y u : Nibble) (s : State),
    (∃ t, exec (.seReg x y u) s = .next t ∧ OnlyChanges [.pc] s t ∧
      t.pc = if s.readV x = s.readV y then s.pc + 4#16 else s.pc + 2#16) ∧
    (∃ t, exec (.sneReg x y u) s = .next t ∧ OnlyChanges [.pc] s t ∧
      t.pc = if s.readV x ≠ s.readV y then s.pc + 4#16 else s.pc + 2#16)

/-- SKP Vx and SKNP Vx: the condition is that the latch holds exactly the key `V[x]`; the latch is not
changed (R215, R216). -/
def Obligations.SkipsOnTheKeyLatch : Prop :=
  ∀ (x : Nibble) (s : State),
    (∃ t, exec (.skp x) s = .next t ∧ OnlyChanges [.pc] s t ∧
      ((∃ k, s.latch = some k ∧ k.toNat = (s.readV x).toNat) → t.pc = s.pc + 4#16) ∧
      ((¬ ∃ k, s.latch = some k ∧ k.toNat = (s.readV x).toNat) → t.pc = s.pc + 2#16)) ∧
    (∃ t, exec (.sknp x) s = .next t ∧ OnlyChanges [.pc] s t ∧
      ((∃ k, s.latch = some k ∧ k.toNat = (s.readV x).toNat) → t.pc = s.pc + 2#16) ∧
      ((¬ ∃ k, s.latch = some k ∧ k.toNat = (s.readV x).toNat) → t.pc = s.pc + 4#16))

/-! ## ALU -/

/-- LD Vx, kk and ADD Vx, kk: the register takes `kk`, or the sum modulo 256; no flag, VF only as Vx (R142,
R143). -/
def Obligations.ImmediateLoadAndAdd : Prop :=
  ∀ (x : Nibble) (kk : Byte) (s : State),
    (∃ t, exec (.ldImm x kk) s = .next t ∧ t.readV x = kk ∧ t.pc = s.pc + 2#16 ∧
      OnlyRegs [x] s t ∧ OnlyChanges [.v, .pc] s t) ∧
    (∃ t, exec (.addImm x kk) s = .next t ∧
      (t.readV x).toNat = ((s.readV x).toNat + kk.toNat) % 256 ∧ t.pc = s.pc + 2#16 ∧
      OnlyRegs [x] s t ∧ OnlyChanges [.v, .pc] s t)

/-- LD Vx, Vy and LD Vx, DT: the register takes the other register, or the delay timer (R144, R217). -/
def Obligations.MovesCopyTheirSource : Prop :=
  (∀ (x y : Nibble) (s : State), ∃ t, exec (.ldReg x y) s = .next t ∧ t.readV x = s.readV y ∧
    t.pc = s.pc + 2#16 ∧ OnlyRegs [x] s t ∧ OnlyChanges [.v, .pc] s t) ∧
  (∀ (x : Nibble) (s : State), ∃ t, exec (.ldVxDt x) s = .next t ∧ t.readV x = s.dt ∧
    t.pc = s.pc + 2#16 ∧ OnlyRegs [x] s t ∧ OnlyChanges [.v, .pc] s t)

/-- OR, AND and XOR, bit by bit; VF is written only as Vx (R145 to R147; that is the spec's own choice
D5). -/
def Obligations.BitwiseOperationsActBitByBit : Prop :=
  ∀ (x y : Nibble) (s : State),
    (∃ t, exec (.orReg x y) s = .next t ∧
      (∀ b, (t.readV x).getLsbD b = ((s.readV x).getLsbD b || (s.readV y).getLsbD b)) ∧
      t.pc = s.pc + 2#16 ∧ OnlyRegs [x] s t ∧ OnlyChanges [.v, .pc] s t) ∧
    (∃ t, exec (.andReg x y) s = .next t ∧
      (∀ b, (t.readV x).getLsbD b = ((s.readV x).getLsbD b && (s.readV y).getLsbD b)) ∧
      t.pc = s.pc + 2#16 ∧ OnlyRegs [x] s t ∧ OnlyChanges [.v, .pc] s t) ∧
    (∃ t, exec (.xorReg x y) s = .next t ∧
      (∀ b, (t.readV x).getLsbD b = ((s.readV x).getLsbD b ^^ (s.readV y).getLsbD b)) ∧
      t.pc = s.pc + 2#16 ∧ OnlyRegs [x] s t ∧ OnlyChanges [.v, .pc] s t)

/-- ADD Vx, Vy: the sum modulo 256 in Vx, the carry of the exact sum in VF, always written; with `x = F` VF
is the carry (R148; the order of the two writes is the spec's own choice D3). -/
def Obligations.AddSetsTheCarryFlag : Prop :=
  ∀ (x y : Nibble) (s : State), ∃ t, exec (.addReg x y) s = .next t ∧
    (x ≠ 0xF#4 → (t.readV x).toNat = ((s.readV x).toNat + (s.readV y).toNat) % 256) ∧
    (t.readV 0xF#4).toNat = (if 255 < (s.readV x).toNat + (s.readV y).toNat then 1 else 0) ∧
    t.pc = s.pc + 2#16 ∧ OnlyRegs [x, 0xF#4] s t ∧ OnlyChanges [.v, .pc] s t

/-- SUB and SUBN: the difference modulo 256 in Vx, the not-borrow flag in VF, 1 iff the minuend is at least
the subtrahend; with `x = F` VF is the flag (R149, R151; the order of the writes is D3). -/
def Obligations.SubtractionsSetTheNotBorrowFlag : Prop :=
  ∀ (x y : Nibble) (s : State),
    (∃ t, exec (.subReg x y) s = .next t ∧
      (x ≠ 0xF#4 → (t.readV x).toNat = (256 + (s.readV x).toNat - (s.readV y).toNat) % 256) ∧
      (t.readV 0xF#4).toNat = (if (s.readV y).toNat ≤ (s.readV x).toNat then 1 else 0) ∧
      t.pc = s.pc + 2#16 ∧ OnlyRegs [x, 0xF#4] s t ∧ OnlyChanges [.v, .pc] s t) ∧
    (∃ t, exec (.subn x y) s = .next t ∧
      (x ≠ 0xF#4 → (t.readV x).toNat = (256 + (s.readV y).toNat - (s.readV x).toNat) % 256) ∧
      (t.readV 0xF#4).toNat = (if (s.readV x).toNat ≤ (s.readV y).toNat then 1 else 0) ∧
      t.pc = s.pc + 2#16 ∧ OnlyRegs [x, 0xF#4] s t ∧ OnlyChanges [.v, .pc] s t)

/-- SHR and SHL: Vx halved, or doubled modulo 256, and the bit shifted out in VF, for every value of the
ignored `y`; with `x = F` VF is the bit (R150, R152; D3, and D4 that Vx is shifted in place). -/
def Obligations.ShiftsMoveTheLostBitToTheFlag : Prop :=
  ∀ (x y : Nibble) (s : State),
    (∃ t, exec (.shr x y) s = .next t ∧
      (x ≠ 0xF#4 → (t.readV x).toNat = (s.readV x).toNat / 2) ∧
      (t.readV 0xF#4).toNat = (s.readV x).toNat % 2 ∧
      t.pc = s.pc + 2#16 ∧ OnlyRegs [x, 0xF#4] s t ∧ OnlyChanges [.v, .pc] s t) ∧
    (∃ t, exec (.shl x y) s = .next t ∧
      (x ≠ 0xF#4 → (t.readV x).toNat = 2 * (s.readV x).toNat % 256) ∧
      (t.readV 0xF#4).toNat = (s.readV x).toNat / 128 ∧
      t.pc = s.pc + 2#16 ∧ OnlyRegs [x, 0xF#4] s t ∧ OnlyChanges [.v, .pc] s t)

/-- RND Vx, kk: Vx takes the draw, whatever byte it is, masked with `kk`; the next draw is a new one (R153;
the draw as a free value is D16, its counter the model's, log entry 2). -/
def Obligations.RandomByteIsMasked : Prop :=
  ∀ (x : Nibble) (kk : Byte) (s : State), ∃ t, exec (.rnd x kk) s = .next t ∧
    t.readV x = Config.rand s.draws &&& kk ∧ t.draws = s.draws + 1 ∧ t.pc = s.pc + 2#16 ∧
    OnlyRegs [x] s t ∧ OnlyChanges [.v, .pc, .draws] s t

/-! ## Index register and memory transfers -/

/-- ADD I, Vx: the sum modulo 2^16 and no flag (R171; D8). LD F, Vx: five times the whole byte (R172;
D12). -/
def Obligations.IndexArithmetic : Prop :=
  ∀ (x : Nibble) (s : State),
    (∃ t, exec (.addI x) s = .next t ∧ t.i.toNat = (s.i.toNat + (s.readV x).toNat) % 65536 ∧
      t.pc = s.pc + 2#16 ∧ OnlyChanges [.i, .pc] s t) ∧
    (∃ t, exec (.ldF x) s = .next t ∧ t.i.toNat = 5 * (s.readV x).toNat ∧
      t.pc = s.pc + 2#16 ∧ OnlyChanges [.i, .pc] s t)

/-- LD B, Vx: the three decimal digits of Vx, hundreds first, in the three bytes at `I`; `I` and every other
byte unchanged (R173; the order and `I` are the spec's own choice D7). -/
def Obligations.DecimalDigitsAreStored : Prop :=
  ∀ (x : Nibble) (s : State), s.i.toNat + 3 < 4096 → ∃ t, exec (.ldB x) s = .next t ∧
    100 * (t.mem.read s.i.toNat).toNat + 10 * (t.mem.read (s.i.toNat + 1)).toNat +
      (t.mem.read (s.i.toNat + 2)).toNat = (s.readV x).toNat ∧
    (t.mem.read (s.i.toNat + 1)).toNat < 10 ∧ (t.mem.read (s.i.toNat + 2)).toNat < 10 ∧
    OnlyBytes s.i.toNat 3 s t ∧ t.pc = s.pc + 2#16 ∧ OnlyChanges [.mem, .pc] s t

/-- LD [I], Vx: V0..Vx in the bytes from `I` on, every other byte unchanged, and `I` moved past them
(R174). -/
def Obligations.RegistersAreStored : Prop :=
  ∀ (x : Nibble) (s : State), s.i.toNat + x.toNat + 1 < 4096 →
    ∃ t, exec (.storeRegs x) s = .next t ∧
      (∀ r : Nibble, r.toNat ≤ x.toNat → t.mem.read (s.i.toNat + r.toNat) = s.readV r) ∧
      OnlyBytes s.i.toNat (x.toNat + 1) s t ∧ t.i.toNat = s.i.toNat + x.toNat + 1 ∧
      t.pc = s.pc + 2#16 ∧ OnlyChanges [.mem, .i, .pc] s t

/-- LD B, Vx and LD [I], Vx past the write bound halt the core with OutOfBounds of the start address and
write nothing at all (R173, R174, R53, R236; status and record are D15). -/
def Obligations.StoresPastTheBoundHaltUnchanged : Prop :=
  ∀ (x : Nibble) (s : State),
    (4096 ≤ s.i.toNat + 3 → ∃ t, exec (.ldB x) s = .next t ∧
      t.status = .halted ⟨.outOfBounds s.i.toNat, s.pc⟩ ∧ OnlyChanges [.status] s t) ∧
    (4096 ≤ s.i.toNat + x.toNat + 1 → ∃ t, exec (.storeRegs x) s = .next t ∧
      t.status = .halted ⟨.outOfBounds s.i.toNat, s.pc⟩ ∧ OnlyChanges [.status] s t)

/-- LD Vx, [I]: V0..Vx from the bytes at `I`, the other registers unchanged, and `I` moved past them (R175;
that `I` moves is the spec's own choice D6). -/
def Obligations.RegistersAreLoaded : Prop :=
  ∀ (x : Nibble) (s : State), s.i.toNat + x.toNat < 4096 →
    ∃ t, exec (.loadRegs x) s = .next t ∧
      (∀ r : Nibble, r.toNat ≤ x.toNat → t.readV r = s.mem.read (s.i.toNat + r.toNat)) ∧
      (∀ r : Nibble, x.toNat < r.toNat → t.readV r = s.readV r) ∧
      t.i.toNat = s.i.toNat + x.toNat + 1 ∧ t.pc = s.pc + 2#16 ∧ OnlyChanges [.v, .i, .pc] s t

/-- LD Vx, [I] past memory halts the core with OutOfBounds of the first address that does not exist; each of
V0..Vx is its old value or the byte loaded for it, whichever the free value says, and `I` is unchanged (R175,
R236; D15, log entry 3). -/
def Obligations.LoadsPastMemoryHalt : Prop :=
  ∀ (x : Nibble) (s : State), 4096 ≤ s.i.toNat + x.toNat →
    ∃ t, exec (.loadRegs x) s = .next t ∧
      t.status = .halted ⟨.outOfBounds (if s.i.toNat < 4096 then 4096 else s.i.toNat), s.pc⟩ ∧
      (∀ r : Nibble, t.readV r = s.readV r ∨
        (r.toNat ≤ x.toNat ∧ s.i.toNat + r.toNat < 4096 ∧
          t.readV r = s.mem.read (s.i.toNat + r.toNat))) ∧
      OnlyChanges [.v, .status, .draws] s t

/-- A load from where a store put the registers gives them back (source §4.6 "inverse load"; R174, R175). -/
def Obligations.LoadAfterStoreRestoresTheRegisters : Prop :=
  ∀ (x : Nibble) (s : State), s.i.toNat + x.toNat + 1 < 4096 →
    ∃ t, exec (.storeRegs x) s = .next t ∧
      ∀ s' : State, s'.mem = t.mem → s'.i = s.i → ∃ t', exec (.loadRegs x) s' = .next t' ∧
        (∀ r : Nibble, r.toNat ≤ x.toNat → t'.readV r = s.readV r) ∧ t'.i = t.i

/-- Self-modifying code: a store over the next instruction is what the next fetch reads (R69). -/
def Obligations.AStoreIsSeenByTheNextFetch : Prop :=
  ∀ (x : Nibble) (s : State), 1 ≤ x.toNat → s.i.toNat = s.pc.toNat + 2 →
    s.i.toNat + x.toNat + 1 < 4096 →
    ∃ t, exec (.storeRegs x) s = .next t ∧ t.pc = s.i ∧
      fetch t = .ok (wordOfBytes (s.readV 0x0#4) (s.readV 0x1#4))

/-! ## Display -/

/-- CLS: every pixel 0 (R195), whatever the ignored nibble (D2). -/
def Obligations.ClearScreenClearsEveryPixel : Prop :=
  ∀ (u : Nibble) (s : State), ∃ t, exec (.cls u) s = .next t ∧
    (∀ col row, pixel t.disp col row = false) ∧ t.pc = s.pc + 2#16 ∧ OnlyChanges [.disp, .pc] s t

/-- DisplayDraw (R192): each of the 8 pixels from column `x` of row `y`, with wraparound, is XORed with its
bit of the byte, most significant first; every other pixel stays; and it reports whether some existing pixel
is 1 where the incoming bit is 0. -/
def Obligations.RowDrawXorsEightPixels : Prop :=
  ∀ (d : Display) (x y : Nat) (b : Byte),
    (∀ j, j < 8 → pixel (displayDraw d x y b).1 ((x + j) % 64) (y % 32) =
      (pixel d ((x + j) % 64) (y % 32) ^^ b.getLsbD (7 - j))) ∧
    (∀ col row, col < 64 → row < 32 → ¬ (row = y % 32 ∧ ∃ j, j < 8 ∧ col = (x + j) % 64) →
      pixel (displayDraw d x y b).1 col row = pixel d col row) ∧
    ((displayDraw d x y b).2 = true ↔
      ∃ j, j < 8 ∧ pixel d ((x + j) % 64) (y % 32) = true ∧ b.getLsbD (7 - j) = false)

/-- DRW Vx, Vy, n when every row can be read, `n = 0` included: each pixel is XORed with the sprite's bit over
it; VF is 1 iff some sprite bit is 0 over a pixel that was lit, else 0; `I` unchanged (R196; D11 for `n = 0`
and for the coordinates being read before VF is written). -/
def Obligations.DrawXorsTheSprite : Prop :=
  ∀ (x y n : Nibble) (s : State), (n.toNat = 0 ∨ s.i.toNat + n.toNat ≤ 4096) →
    ∃ t, exec (.drw x y n) s = .next t ∧
      (∀ col row, pixel t.disp col row = (pixel s.disp col row ^^
        spriteAt s.mem s.i.toNat (s.readV x).toNat (s.readV y).toNat n.toNat col row)) ∧
      ((t.readV 0xF#4).toNat = 0 ∨ (t.readV 0xF#4).toNat = 1) ∧
      ((t.readV 0xF#4).toNat = 1 ↔ ∃ r j, r < n.toNat ∧ j < 8 ∧
        pixel s.disp ((s.readV x).toNat + j) ((s.readV y).toNat + r) = true ∧
        (s.mem.read (s.i.toNat + r)).getLsbD (7 - j) = false) ∧
      OnlyRegs [0xF#4] s t ∧ t.pc = s.pc + 2#16 ∧ OnlyChanges [.v, .disp, .pc] s t

/-- DRW with a row past memory halts the core with OutOfBounds of the first address that does not exist; each
pixel is its old value or its value with the rows before that one drawn, whichever the free value says; VF
and `I` are unchanged (R196, R236; D15, log entry 3). -/
def Obligations.DrawPastMemoryHalts : Prop :=
  ∀ (x y n : Nibble) (s : State), 1 ≤ n.toNat → 4096 < s.i.toNat + n.toNat →
    ∃ t, exec (.drw x y n) s = .next t ∧
      t.status = .halted ⟨.outOfBounds (if s.i.toNat < 4096 then 4096 else s.i.toNat), s.pc⟩ ∧
      (∀ col row, pixel t.disp col row = pixel s.disp col row ∨
        pixel t.disp col row = (pixel s.disp col row ^^
          spriteAt s.mem s.i.toNat (s.readV x).toNat (s.readV y).toNat (4096 - s.i.toNat) col row)) ∧
      OnlyChanges [.disp, .status, .draws] s t

/-! ## Timers and keys -/

/-- LD DT, Vx and LD ST, Vx: the timer takes the register (R219, R220). -/
def Obligations.TimersAreSet : Prop :=
  ∀ (x : Nibble) (s : State),
    (∃ t, exec (.ldDtVx x) s = .next t ∧ t.dt = s.readV x ∧ t.pc = s.pc + 2#16 ∧
      OnlyChanges [.dt, .pc] s t) ∧
    (∃ t, exec (.ldStVx x) s = .next t ∧ t.st = s.readV x ∧ t.pc = s.pc + 2#16 ∧
      OnlyChanges [.st, .pc] s t)

/-- LD Vx, K: a latched key is stored, pc moves on and the latch stays; with none, nothing at all changes, so
the same instruction runs again (R218, R110; that the latch stays is the spec's own choice D23). -/
def Obligations.KeyWaitStoresTheKeyOrWaits : Prop :=
  ∀ (x : Nibble) (s : State),
    (∀ k, s.latch = some k → ∃ t, exec (.ldVxK x) s = .next t ∧ (t.readV x).toNat = k.toNat ∧
      t.pc = s.pc + 2#16 ∧ OnlyRegs [x] s t ∧ OnlyChanges [.v, .pc] s t) ∧
    (s.latch = none → exec (.ldVxK x) s = .next s)

/-! ## The whole machine -/

/-- No instruction changes a piece of state that the rules do not let it change: the stack only by CALL and
RET, the display only by CLS and DRW, memory only by LD B and LD [I], DT only by LD DT, ST only by LD ST, the
latch by none, the status only where R232 lets the instruction fault. -/
def Obligations.InstructionsChangeOnlyTheirOwnState : Prop :=
  ∀ (i : Instr) (s t : State), exec i s = .next t → OnlyChanges (writesFields i) s t

/-- No instruction writes a general register that the table of R23 does not give it, VF among them (R21). -/
def Obligations.InstructionsWriteOnlyTheirOwnRegisters : Prop :=
  ∀ (i : Instr) (s t : State), exec i s = .next t →
    ∀ r, i.writesReg r = false → t.readV r = s.readV r

/-- The sound timer is observed by no program and no port (R30, R31; the spec's own choice D24): two states
that differ in ST only step to answers that differ in ST only, and every host action, FRAME, STATUS and TICK
among them, has the same response on both and leaves sessions that differ in ST only. The two states share one
draw counter, so both take the same free values: the equal `RAND` of one step in two runs (R108, R111, D16; log
entry 2), and the same pixels or registers after a fault of DRW or LD Vx, [I] (R236, D15; log entry 3). Of two
machines that draw differently it says nothing. -/
def Obligations.SoundTimerIsNotObserved : Prop :=
  ∀ (s : State) (b : Byte),
    (∀ t, step s = .next t → ∃ c, step (s.setSt b) = .next (t.setSt c)) ∧
    (∀ r, step s = .refused r → step (s.setSt b) = .refused r) ∧
    (∀ (o : Bool) (a : HostAction), ∃ c, Session.act ⟨s.setSt b, o⟩ a =
      ((Session.act ⟨s, o⟩ a).1,
        ⟨(Session.act ⟨s, o⟩ a).2.core.setSt c, (Session.act ⟨s, o⟩ a).2.loadOpen⟩))
end

