-- ==== Sys2Proof/Laws/Encoding.lean ====
section
/-! SUPPORT. The fields of a word built from fields (spec/30_encoding.md R82), what the masks of the opcode
map leave of it, and the word of two bytes. -/

namespace Sys2Proof

/-! ## Fields of a form -/

@[simp] theorem opOf_formNnn (op : Nibble) (nnn : Imm12) : opOf (formNnn op nnn) = op := by
  apply BitVec.eq_of_getLsbD_eq; intro i hi
  simp only [opOf, formNnn, BitVec.getLsbD_extractLsb', BitVec.getLsbD_append]
  simp [hi]

@[simp] theorem nnnOf_formNnn (op : Nibble) (nnn : Imm12) : nnnOf (formNnn op nnn) = nnn := by
  apply BitVec.eq_of_getLsbD_eq; intro i hi
  simp only [nnnOf, formNnn, BitVec.getLsbD_extractLsb', BitVec.getLsbD_append]
  simp [hi]

@[simp] theorem opOf_formXKk (op x : Nibble) (kk : Byte) : opOf (formXKk op x kk) = op := by
  apply BitVec.eq_of_getLsbD_eq; intro i hi
  simp only [opOf, formXKk, BitVec.getLsbD_extractLsb', BitVec.getLsbD_append]
  simp [hi, show ¬ 12 + i < 8 by omega, show ¬ 12 + i - 8 < 4 by omega,
    show 12 + i - 8 - 4 = i by omega]

@[simp] theorem xOf_formXKk (op x : Nibble) (kk : Byte) : xOf (formXKk op x kk) = x := by
  apply BitVec.eq_of_getLsbD_eq; intro i hi
  simp only [xOf, formXKk, BitVec.getLsbD_extractLsb', BitVec.getLsbD_append]
  simp [hi]

@[simp] theorem kkOf_formXKk (op x : Nibble) (kk : Byte) : kkOf (formXKk op x kk) = kk := by
  apply BitVec.eq_of_getLsbD_eq; intro i hi
  simp only [kkOf, formXKk, BitVec.getLsbD_extractLsb', BitVec.getLsbD_append]
  simp [hi]

@[simp] theorem opOf_formXYN (op x y n : Nibble) : opOf (formXYN op x y n) = op := by
  apply BitVec.eq_of_getLsbD_eq; intro i hi
  simp only [opOf, formXYN, BitVec.getLsbD_extractLsb', BitVec.getLsbD_append]
  simp [hi, show ¬ 12 + i < 4 by omega, show ¬ 12 + i - 4 < 4 by omega, show ¬ 12 + i - 4 - 4 < 4 by omega,
    show 12 + i - 4 - 4 - 4 = i by omega]

@[simp] theorem xOf_formXYN (op x y n : Nibble) : xOf (formXYN op x y n) = x := by
  apply BitVec.eq_of_getLsbD_eq; intro i hi
  simp only [xOf, formXYN, BitVec.getLsbD_extractLsb', BitVec.getLsbD_append]
  simp [hi, show ¬ 8 + i < 4 by omega, show ¬ 8 + i - 4 < 4 by omega, show 8 + i - 4 - 4 = i by omega]

@[simp] theorem yOf_formXYN (op x y n : Nibble) : yOf (formXYN op x y n) = y := by
  apply BitVec.eq_of_getLsbD_eq; intro i hi
  simp only [yOf, formXYN, BitVec.getLsbD_extractLsb', BitVec.getLsbD_append]
  simp [hi]

@[simp] theorem nOf_formXYN (op x y n : Nibble) : nOf (formXYN op x y n) = n := by
  apply BitVec.eq_of_getLsbD_eq; intro i hi
  simp only [nOf, formXYN, BitVec.getLsbD_extractLsb', BitVec.getLsbD_append]
  simp [hi]

/-! ## A word from its own fields -/

theorem formNnn_fields (w : Word) : formNnn (opOf w) (nnnOf w) = w := by
  apply BitVec.eq_of_getLsbD_eq; intro i hi
  simp only [opOf, nnnOf, formNnn, BitVec.getLsbD_extractLsb', BitVec.getLsbD_append]
  by_cases h : i < 12
  · simp [h]
  · simp [h, show i - 12 < 4 by omega, show 12 + (i - 12) = i by omega]

theorem formXKk_fields (w : Word) : formXKk (opOf w) (xOf w) (kkOf w) = w := by
  apply BitVec.eq_of_getLsbD_eq; intro i hi
  simp only [opOf, xOf, kkOf, formXKk, BitVec.getLsbD_extractLsb', BitVec.getLsbD_append]
  by_cases h : i < 8
  · simp [h]
  · by_cases h' : i - 8 < 4
    · simp [h, h', show 8 + (i - 8) = i by omega]
    · simp [h, h', show i - 8 - 4 < 4 by omega, show 12 + (i - 8 - 4) = i by omega]

theorem formXYN_fields (w : Word) : formXYN (opOf w) (xOf w) (yOf w) (nOf w) = w := by
  apply BitVec.eq_of_getLsbD_eq; intro i hi
  simp only [opOf, xOf, yOf, nOf, formXYN, BitVec.getLsbD_extractLsb', BitVec.getLsbD_append]
  by_cases h : i < 4
  · simp [h]
  · by_cases h' : i - 4 < 4
    · simp [h, h', show 4 + (i - 4) = i by omega]
    · by_cases h'' : i - 4 - 4 < 4
      · simp [h, h', h'', show 8 + (i - 4 - 4) = i by omega]
      · simp [h, h', h'', show i - 4 - 4 - 4 < 4 by omega, show 12 + (i - 4 - 4 - 4) = i by omega]

/-! ## What the masks of the opcode map leave -/

theorem formNnn_mask (op : Nibble) (nnn : Imm12) :
    formNnn op nnn &&& 0xF000#16 = formNnn op 0#12 := by
  apply BitVec.eq_of_getLsbD_eq; intro i hi
  simp only [formNnn, BitVec.getLsbD_and, BitVec.getLsbD_append]
  interval_cases i <;> simp

theorem formXKk_mask (op x : Nibble) (kk : Byte) :
    formXKk op x kk &&& 0xF000#16 = formXKk op 0#4 0#8 := by
  apply BitVec.eq_of_getLsbD_eq; intro i hi
  simp only [formXKk, BitVec.getLsbD_and, BitVec.getLsbD_append]
  interval_cases i <;> simp

theorem formXKk_mask_kk (op x : Nibble) (kk : Byte) :
    formXKk op x kk &&& 0xF0FF#16 = formXKk op 0#4 kk := by
  apply BitVec.eq_of_getLsbD_eq; intro i hi
  simp only [formXKk, BitVec.getLsbD_and, BitVec.getLsbD_append]
  interval_cases i <;> simp

theorem formXYN_mask (op x y n : Nibble) :
    formXYN op x y n &&& 0xF000#16 = formXYN op 0#4 0#4 0#4 := by
  apply BitVec.eq_of_getLsbD_eq; intro i hi
  simp only [formXYN, BitVec.getLsbD_and, BitVec.getLsbD_append]
  interval_cases i <;> simp

theorem formXYN_mask_n (op x y n : Nibble) :
    formXYN op x y n &&& 0xF00F#16 = formXYN op 0#4 0#4 n := by
  apply BitVec.eq_of_getLsbD_eq; intro i hi
  simp only [formXYN, BitVec.getLsbD_and, BitVec.getLsbD_append]
  interval_cases i <;> simp

/-! ## Bytes -/

theorem wordOfBytes_of_bytes (w : Word) :
    wordOfBytes (w.extractLsb' 8 8) (w.extractLsb' 0 8) = w := by
  apply BitVec.eq_of_getLsbD_eq; intro i hi
  simp only [wordOfBytes, BitVec.getLsbD_extractLsb', BitVec.getLsbD_append]
  by_cases h : i < 8
  · simp [h]
  · simp [h, show i - 8 < 8 by omega, show 8 + (i - 8) = i by omega]

/-- The big-endian word as a number (R81). -/
theorem wordOfBytes_toNat (hi lo : Byte) :
    (wordOfBytes hi lo).toNat = 256 * hi.toNat + lo.toNat := by
  rw [wordOfBytes, BitVec.toNat_append, ← Nat.shiftLeft_add_eq_or_of_lt lo.isLt, Nat.shiftLeft_eq]
  omega

theorem tableWord_toNat (w : Word) : tableWord 16 w.toNat = w := by
  apply BitVec.eq_of_toNat_eq
  simp only [tableWord, BitVec.toNat_ofNat]
  omega

end Sys2Proof
end

