-- ==== Sys2Proof/Laws/Memory.lean ====
section
/-! SUPPORT. The memory controller: read after write, the canonical form, and what each operation answers. -/

namespace Sys2Proof.Machine

@[simp] theorem Memory.read_nil (a : Nat) : Memory.read [] a = Memory.background a := rfl

theorem Memory.read_cons (c : Host.Cell) (m : Memory) (a : Nat) :
    Memory.read (c :: m) a = if c.1 = a then c.2 else Memory.read m a := rfl

theorem Memory.read_erase (m : Memory) (a k : Nat) :
    (Memory.erase m a).read k = if k = a then Memory.background a else m.read k := by
  induction m with
  | nil => simp only [Memory.erase, List.filter_nil, Memory.read_nil]; split <;> simp_all
  | cons c m ih =>
    simp only [Memory.erase] at ih
    simp only [Memory.erase, List.filter_cons, Memory.read_cons]
    by_cases hc : c.1 = a
    · simp only [hc, bne_self_eq_false, Bool.false_eq_true, if_false, ih]
      by_cases hk : k = a
      · simp [hk]
      · simp [hk, Ne.symm hk]
    · simp only [bne_iff_ne, ne_eq, hc, not_false_eq_true, if_true, Memory.read_cons, ih]
      by_cases hk : k = a
      · subst hk; simp [hc]
      · simp [hk]

theorem Memory.read_insert (m : Memory) (a k : Nat) (b : Byte) :
    (Memory.insert m a b).read k = if k = a then b else m.read k := by
  induction m with
  | nil => simp [Memory.insert, Memory.read_cons, eq_comm]
  | cons c m ih =>
    simp only [Memory.insert]
    split
    · simp only [Memory.read_cons, eq_comm]
    · split
      · rename_i h
        simp only [Memory.read_cons, h]
        by_cases hk : k = a
        · simp [hk]
        · simp [hk, Ne.symm hk]
      · rename_i h
        simp only [Memory.read_cons, ih]
        by_cases hk : k = a
        · subst hk; simp [h]
        · simp [hk]

/-- A read after a write: the byte at its address, every other address as before. -/
theorem Memory.read_write (m : Memory) (a k : Nat) (b : Byte) :
    (m.write a b).read k = if k = a then b else m.read k := by
  unfold Memory.write
  split
  · rename_i h; rw [Memory.read_erase, h]
  · exact Memory.read_insert m a k b

/-- A read after a write of bytes. -/
theorem Memory.read_writeBytes (m : Memory) (a : Nat) (bs : List Byte) (k : Nat) :
    (m.writeBytes a bs).read k =
      if a ≤ k then bs.getD (k - a) (m.read k) else m.read k := by
  induction bs generalizing m a with
  | nil => simp [Memory.writeBytes]
  | cons b bs ih =>
    simp only [Memory.writeBytes, ih, Memory.read_write]
    rcases Nat.lt_trichotomy k a with h | h | h
    · rw [if_neg (by omega), if_neg (by omega), if_neg (by omega)]
    · subst h; simp
    · rw [if_pos (by omega), if_neg (by omega), if_pos (by omega)]
      obtain ⟨d, rfl⟩ : ∃ d, k = a + 1 + d := ⟨k - (a + 1), by omega⟩
      rw [show a + 1 + d - (a + 1) = d by omega, show a + 1 + d - a = d + 1 by omega]
      rfl

theorem Memory.read_writeBytes_outside (m : Memory) (a : Nat) (bs : List Byte) (k : Nat)
    (h : ¬ (a ≤ k ∧ k < a + bs.length)) : (m.writeBytes a bs).read k = m.read k := by
  rw [Memory.read_writeBytes]
  split
  · rw [List.getD_eq_default]; omega
  · rfl

theorem Memory.read_writeBytes_inside (m : Memory) (a : Nat) (bs : List Byte) (k : Nat)
    (h : k < bs.length) : (m.writeBytes a bs).read (a + k) = bs[k] := by
  rw [Memory.read_writeBytes, if_pos (by omega), show a + k - a = k by omega]
  exact List.getD_eq_getElem _ _ h

/-! ## The canonical form -/

theorem Memory.wf_cons (c : Host.Cell) (m : Memory) :
    Memory.wf (c :: m) = true ↔
      c.1 < Config.memSize ∧ c.2 ≠ Memory.background c.1 ∧ (∀ d ∈ m, c.1 < d.1) ∧
        Memory.wf m = true := by
  simp [Memory.wf, and_assoc]

theorem Memory.wf_erase (m : Memory) (a : Nat) (h : m.wf = true) : (Memory.erase m a).wf = true := by
  induction m with
  | nil => rfl
  | cons c m ih =>
    obtain ⟨h1, h2, h3, h4⟩ := (Memory.wf_cons c m).1 h
    have ih := ih h4
    simp only [Memory.erase] at ih ⊢
    rw [List.filter_cons]
    split
    · exact (Memory.wf_cons _ _).2 ⟨h1, h2, fun d hd => h3 d (List.mem_of_mem_filter hd), ih⟩
    · exact ih

theorem Memory.mem_insert (m : Memory) (a : Nat) (b : Byte) (d : Host.Cell)
    (h : d ∈ Memory.insert m a b) : d = (a, b) ∨ d ∈ m := by
  induction m with
  | nil => simpa [Memory.insert] using h
  | cons c m ih =>
    simp only [Memory.insert] at h
    split at h
    · simpa using h
    · split at h
      · rcases List.mem_cons.1 h with h | h
        · exact .inl h
        · exact .inr (List.mem_cons_of_mem _ h)
      · rcases List.mem_cons.1 h with h | h
        · exact .inr (by simp [h])
        · exact (ih h).imp id (List.mem_cons_of_mem _)

theorem Memory.wf_insert (m : Memory) (a : Nat) (b : Byte) (h : m.wf = true)
    (ha : a < Config.memSize) (hb : b ≠ Memory.background a) : (Memory.insert m a b).wf = true := by
  induction m with
  | nil => exact (Memory.wf_cons _ _).2 ⟨ha, hb, by simp, rfl⟩
  | cons c m ih =>
    obtain ⟨h1, h2, h3, h4⟩ := (Memory.wf_cons c m).1 h
    simp only [Memory.insert]
    split
    · rename_i hlt
      refine (Memory.wf_cons _ _).2 ⟨ha, hb, fun d hd => ?_, h⟩
      rcases List.mem_cons.1 hd with rfl | hd
      · exact hlt
      · exact Nat.lt_trans hlt (h3 d hd)
    · split
      · rename_i heq
        exact (Memory.wf_cons _ _).2 ⟨ha, hb, fun d hd => heq ▸ h3 d hd, h4⟩
      · rename_i hlt hne
        refine (Memory.wf_cons _ _).2 ⟨h1, h2, fun d hd => ?_, ih h4⟩
        rcases Memory.mem_insert m a b d hd with rfl | hd
        · change c.1 < a; omega
        · exact h3 d hd

/-- One byte stored inside the address space keeps the canonical form. -/
theorem Memory.wf_write (m : Memory) (a : Nat) (b : Byte) (h : m.wf = true)
    (ha : a < Config.memSize) : (m.write a b).wf = true := by
  unfold Memory.write
  split
  · exact Memory.wf_erase m a h
  · rename_i hb; exact Memory.wf_insert m a b h ha hb

/-- Bytes stored inside the address space keep the canonical form. -/
theorem Memory.wf_writeBytes (m : Memory) (a : Nat) (bs : List Byte) (h : m.wf = true)
    (ha : a + bs.length ≤ Config.memSize) : (m.writeBytes a bs).wf = true := by
  induction bs generalizing m a with
  | nil => exact h
  | cons b bs ih =>
    simp only [List.length_cons] at ha
    exact ih _ _ (Memory.wf_write m a b h (by omega)) (by omega)

/-! ## The controller -/

/-- Everything `MemRead` can answer. -/
theorem memRead_cases (m : Memory) (a : Nat) :
    (a < Config.memSize ∧ memRead m a = .ok (m.read a)) ∨
      (Config.memSize ≤ a ∧ memRead m a = .error (.outOfBounds a)) := by
  unfold memRead
  by_cases h : Config.memSize ≤ a
  · exact .inr ⟨h, if_pos h⟩
  · exact .inl ⟨by omega, if_neg h⟩

theorem memRead_ok (m : Memory) (a : Nat) (h : a < Config.memSize) :
    memRead m a = .ok (m.read a) := if_neg (by omega)

theorem memRead_error (m : Memory) (a : Nat) (h : Config.memSize ≤ a) :
    memRead m a = .error (.outOfBounds a) := if_pos h

/-- Reads at ascending addresses that all exist. -/
theorem memReadRange_ok (m : Memory) (a n : Nat) (h : a + n ≤ Config.memSize) :
    memReadRange m a n = .ok ((List.range n).map fun k => m.read (a + k)) := by
  induction n generalizing a with
  | zero => rfl
  | succ n ih =>
    rw [memReadRange, memRead_ok m a (by omega), ih (a + 1) (by omega), List.range_succ_eq_map]
    simp [Nat.add_assoc, Nat.add_comm 1]

/-- Reads that run out of memory fail at the first address past it. -/
theorem memReadRange_error (m : Memory) (a n : Nat) (h : Config.memSize < a + n) (hn : 0 < n) :
    memReadRange m a n = .error (.outOfBounds (max a Config.memSize)) := by
  induction n generalizing a with
  | zero => omega
  | succ n ih =>
    by_cases ha : Config.memSize ≤ a
    · rw [memReadRange, memRead_error m a ha, Nat.max_eq_left ha]
    · rw [memReadRange, memRead_ok m a (by omega)]
      rcases Nat.eq_zero_or_pos n with rfl | hn'
      · omega
      · rw [ih (a + 1) (by omega) hn']
        simp only [Except.error.injEq, FaultInfo.outOfBounds.injEq]
        omega

/-- Everything `MemWrite` can answer. -/
theorem memWrite_cases (m : Memory) (a : Nat) (d : List Byte) :
    (a + d.length < Config.memSize ∧ memWrite m a d = .ok (m.writeBytes a d)) ∨
      (Config.memSize ≤ a + d.length ∧ memWrite m a d = .error (.outOfBounds a)) := by
  unfold memWrite
  by_cases h : Config.memSize ≤ a + d.length
  · exact .inr ⟨h, if_pos h⟩
  · exact .inl ⟨by omega, if_neg h⟩

theorem memWrite_ok (m : Memory) (a : Nat) (d : List Byte) (h : a + d.length < Config.memSize) :
    memWrite m a d = .ok (m.writeBytes a d) := if_neg (by omega)

theorem memWrite_error (m : Memory) (a : Nat) (d : List Byte) (h : Config.memSize ≤ a + d.length) :
    memWrite m a d = .error (.outOfBounds a) := if_pos h

end Sys2Proof.Machine
end

