-- ==== Sys2Proof/Laws/State.lean ====
section
/-! SUPPORT. One lemma per field per update of State, so that no proof unfolds a record update. -/

namespace Sys2Proof.Machine

variable (s : State)

@[simp] theorem State.setV_v (a : RegFile) : (s.setV a).v = a := rfl
@[simp] theorem State.setV_i (a : RegFile) : (s.setV a).i = s.i := rfl
@[simp] theorem State.setV_pc (a : RegFile) : (s.setV a).pc = s.pc := rfl
@[simp] theorem State.setV_dt (a : RegFile) : (s.setV a).dt = s.dt := rfl
@[simp] theorem State.setV_st (a : RegFile) : (s.setV a).st = s.st := rfl
@[simp] theorem State.setV_stack (a : RegFile) : (s.setV a).stack = s.stack := rfl
@[simp] theorem State.setV_mem (a : RegFile) : (s.setV a).mem = s.mem := rfl
@[simp] theorem State.setV_disp (a : RegFile) : (s.setV a).disp = s.disp := rfl
@[simp] theorem State.setV_latch (a : RegFile) : (s.setV a).latch = s.latch := rfl
@[simp] theorem State.setV_status (a : RegFile) : (s.setV a).status = s.status := rfl
@[simp] theorem State.setV_draws (a : RegFile) : (s.setV a).draws = s.draws := rfl

@[simp] theorem State.setI_v (a : Word) : (s.setI a).v = s.v := rfl
@[simp] theorem State.setI_i (a : Word) : (s.setI a).i = a := rfl
@[simp] theorem State.setI_pc (a : Word) : (s.setI a).pc = s.pc := rfl
@[simp] theorem State.setI_dt (a : Word) : (s.setI a).dt = s.dt := rfl
@[simp] theorem State.setI_st (a : Word) : (s.setI a).st = s.st := rfl
@[simp] theorem State.setI_stack (a : Word) : (s.setI a).stack = s.stack := rfl
@[simp] theorem State.setI_mem (a : Word) : (s.setI a).mem = s.mem := rfl
@[simp] theorem State.setI_disp (a : Word) : (s.setI a).disp = s.disp := rfl
@[simp] theorem State.setI_latch (a : Word) : (s.setI a).latch = s.latch := rfl
@[simp] theorem State.setI_status (a : Word) : (s.setI a).status = s.status := rfl
@[simp] theorem State.setI_draws (a : Word) : (s.setI a).draws = s.draws := rfl

@[simp] theorem State.setPc_v (a : Word) : (s.setPc a).v = s.v := rfl
@[simp] theorem State.setPc_i (a : Word) : (s.setPc a).i = s.i := rfl
@[simp] theorem State.setPc_pc (a : Word) : (s.setPc a).pc = a := rfl
@[simp] theorem State.setPc_dt (a : Word) : (s.setPc a).dt = s.dt := rfl
@[simp] theorem State.setPc_st (a : Word) : (s.setPc a).st = s.st := rfl
@[simp] theorem State.setPc_stack (a : Word) : (s.setPc a).stack = s.stack := rfl
@[simp] theorem State.setPc_mem (a : Word) : (s.setPc a).mem = s.mem := rfl
@[simp] theorem State.setPc_disp (a : Word) : (s.setPc a).disp = s.disp := rfl
@[simp] theorem State.setPc_latch (a : Word) : (s.setPc a).latch = s.latch := rfl
@[simp] theorem State.setPc_status (a : Word) : (s.setPc a).status = s.status := rfl
@[simp] theorem State.setPc_draws (a : Word) : (s.setPc a).draws = s.draws := rfl

@[simp] theorem State.setDt_v (a : Byte) : (s.setDt a).v = s.v := rfl
@[simp] theorem State.setDt_i (a : Byte) : (s.setDt a).i = s.i := rfl
@[simp] theorem State.setDt_pc (a : Byte) : (s.setDt a).pc = s.pc := rfl
@[simp] theorem State.setDt_dt (a : Byte) : (s.setDt a).dt = a := rfl
@[simp] theorem State.setDt_st (a : Byte) : (s.setDt a).st = s.st := rfl
@[simp] theorem State.setDt_stack (a : Byte) : (s.setDt a).stack = s.stack := rfl
@[simp] theorem State.setDt_mem (a : Byte) : (s.setDt a).mem = s.mem := rfl
@[simp] theorem State.setDt_disp (a : Byte) : (s.setDt a).disp = s.disp := rfl
@[simp] theorem State.setDt_latch (a : Byte) : (s.setDt a).latch = s.latch := rfl
@[simp] theorem State.setDt_status (a : Byte) : (s.setDt a).status = s.status := rfl
@[simp] theorem State.setDt_draws (a : Byte) : (s.setDt a).draws = s.draws := rfl

@[simp] theorem State.setSt_v (a : Byte) : (s.setSt a).v = s.v := rfl
@[simp] theorem State.setSt_i (a : Byte) : (s.setSt a).i = s.i := rfl
@[simp] theorem State.setSt_pc (a : Byte) : (s.setSt a).pc = s.pc := rfl
@[simp] theorem State.setSt_dt (a : Byte) : (s.setSt a).dt = s.dt := rfl
@[simp] theorem State.setSt_st (a : Byte) : (s.setSt a).st = a := rfl
@[simp] theorem State.setSt_stack (a : Byte) : (s.setSt a).stack = s.stack := rfl
@[simp] theorem State.setSt_mem (a : Byte) : (s.setSt a).mem = s.mem := rfl
@[simp] theorem State.setSt_disp (a : Byte) : (s.setSt a).disp = s.disp := rfl
@[simp] theorem State.setSt_latch (a : Byte) : (s.setSt a).latch = s.latch := rfl
@[simp] theorem State.setSt_status (a : Byte) : (s.setSt a).status = s.status := rfl
@[simp] theorem State.setSt_draws (a : Byte) : (s.setSt a).draws = s.draws := rfl

@[simp] theorem State.setStack_v (a : List Word) : (s.setStack a).v = s.v := rfl
@[simp] theorem State.setStack_i (a : List Word) : (s.setStack a).i = s.i := rfl
@[simp] theorem State.setStack_pc (a : List Word) : (s.setStack a).pc = s.pc := rfl
@[simp] theorem State.setStack_dt (a : List Word) : (s.setStack a).dt = s.dt := rfl
@[simp] theorem State.setStack_st (a : List Word) : (s.setStack a).st = s.st := rfl
@[simp] theorem State.setStack_stack (a : List Word) : (s.setStack a).stack = a := rfl
@[simp] theorem State.setStack_mem (a : List Word) : (s.setStack a).mem = s.mem := rfl
@[simp] theorem State.setStack_disp (a : List Word) : (s.setStack a).disp = s.disp := rfl
@[simp] theorem State.setStack_latch (a : List Word) : (s.setStack a).latch = s.latch := rfl
@[simp] theorem State.setStack_status (a : List Word) : (s.setStack a).status = s.status := rfl
@[simp] theorem State.setStack_draws (a : List Word) : (s.setStack a).draws = s.draws := rfl

@[simp] theorem State.setMem_v (a : Memory) : (s.setMem a).v = s.v := rfl
@[simp] theorem State.setMem_i (a : Memory) : (s.setMem a).i = s.i := rfl
@[simp] theorem State.setMem_pc (a : Memory) : (s.setMem a).pc = s.pc := rfl
@[simp] theorem State.setMem_dt (a : Memory) : (s.setMem a).dt = s.dt := rfl
@[simp] theorem State.setMem_st (a : Memory) : (s.setMem a).st = s.st := rfl
@[simp] theorem State.setMem_stack (a : Memory) : (s.setMem a).stack = s.stack := rfl
@[simp] theorem State.setMem_mem (a : Memory) : (s.setMem a).mem = a := rfl
@[simp] theorem State.setMem_disp (a : Memory) : (s.setMem a).disp = s.disp := rfl
@[simp] theorem State.setMem_latch (a : Memory) : (s.setMem a).latch = s.latch := rfl
@[simp] theorem State.setMem_status (a : Memory) : (s.setMem a).status = s.status := rfl
@[simp] theorem State.setMem_draws (a : Memory) : (s.setMem a).draws = s.draws := rfl

@[simp] theorem State.setDisp_v (a : Display) : (s.setDisp a).v = s.v := rfl
@[simp] theorem State.setDisp_i (a : Display) : (s.setDisp a).i = s.i := rfl
@[simp] theorem State.setDisp_pc (a : Display) : (s.setDisp a).pc = s.pc := rfl
@[simp] theorem State.setDisp_dt (a : Display) : (s.setDisp a).dt = s.dt := rfl
@[simp] theorem State.setDisp_st (a : Display) : (s.setDisp a).st = s.st := rfl
@[simp] theorem State.setDisp_stack (a : Display) : (s.setDisp a).stack = s.stack := rfl
@[simp] theorem State.setDisp_mem (a : Display) : (s.setDisp a).mem = s.mem := rfl
@[simp] theorem State.setDisp_disp (a : Display) : (s.setDisp a).disp = a := rfl
@[simp] theorem State.setDisp_latch (a : Display) : (s.setDisp a).latch = s.latch := rfl
@[simp] theorem State.setDisp_status (a : Display) : (s.setDisp a).status = s.status := rfl
@[simp] theorem State.setDisp_draws (a : Display) : (s.setDisp a).draws = s.draws := rfl

@[simp] theorem State.setLatch_v (a : Option Nibble) : (s.setLatch a).v = s.v := rfl
@[simp] theorem State.setLatch_i (a : Option Nibble) : (s.setLatch a).i = s.i := rfl
@[simp] theorem State.setLatch_pc (a : Option Nibble) : (s.setLatch a).pc = s.pc := rfl
@[simp] theorem State.setLatch_dt (a : Option Nibble) : (s.setLatch a).dt = s.dt := rfl
@[simp] theorem State.setLatch_st (a : Option Nibble) : (s.setLatch a).st = s.st := rfl
@[simp] theorem State.setLatch_stack (a : Option Nibble) : (s.setLatch a).stack = s.stack := rfl
@[simp] theorem State.setLatch_mem (a : Option Nibble) : (s.setLatch a).mem = s.mem := rfl
@[simp] theorem State.setLatch_disp (a : Option Nibble) : (s.setLatch a).disp = s.disp := rfl
@[simp] theorem State.setLatch_latch (a : Option Nibble) : (s.setLatch a).latch = a := rfl
@[simp] theorem State.setLatch_status (a : Option Nibble) : (s.setLatch a).status = s.status := rfl
@[simp] theorem State.setLatch_draws (a : Option Nibble) : (s.setLatch a).draws = s.draws := rfl

@[simp] theorem State.setStatus_v (a : Status) : (s.setStatus a).v = s.v := rfl
@[simp] theorem State.setStatus_i (a : Status) : (s.setStatus a).i = s.i := rfl
@[simp] theorem State.setStatus_pc (a : Status) : (s.setStatus a).pc = s.pc := rfl
@[simp] theorem State.setStatus_dt (a : Status) : (s.setStatus a).dt = s.dt := rfl
@[simp] theorem State.setStatus_st (a : Status) : (s.setStatus a).st = s.st := rfl
@[simp] theorem State.setStatus_stack (a : Status) : (s.setStatus a).stack = s.stack := rfl
@[simp] theorem State.setStatus_mem (a : Status) : (s.setStatus a).mem = s.mem := rfl
@[simp] theorem State.setStatus_disp (a : Status) : (s.setStatus a).disp = s.disp := rfl
@[simp] theorem State.setStatus_latch (a : Status) : (s.setStatus a).latch = s.latch := rfl
@[simp] theorem State.setStatus_status (a : Status) : (s.setStatus a).status = a := rfl
@[simp] theorem State.setStatus_draws (a : Status) : (s.setStatus a).draws = s.draws := rfl

@[simp] theorem State.setDraws_v (a : Nat) : (s.setDraws a).v = s.v := rfl
@[simp] theorem State.setDraws_i (a : Nat) : (s.setDraws a).i = s.i := rfl
@[simp] theorem State.setDraws_pc (a : Nat) : (s.setDraws a).pc = s.pc := rfl
@[simp] theorem State.setDraws_dt (a : Nat) : (s.setDraws a).dt = s.dt := rfl
@[simp] theorem State.setDraws_st (a : Nat) : (s.setDraws a).st = s.st := rfl
@[simp] theorem State.setDraws_stack (a : Nat) : (s.setDraws a).stack = s.stack := rfl
@[simp] theorem State.setDraws_mem (a : Nat) : (s.setDraws a).mem = s.mem := rfl
@[simp] theorem State.setDraws_disp (a : Nat) : (s.setDraws a).disp = s.disp := rfl
@[simp] theorem State.setDraws_latch (a : Nat) : (s.setDraws a).latch = s.latch := rfl
@[simp] theorem State.setDraws_status (a : Nat) : (s.setDraws a).status = s.status := rfl
@[simp] theorem State.setDraws_draws (a : Nat) : (s.setDraws a).draws = a := rfl

/-! ## The updates built from these -/

@[simp] theorem State.writeV_i (x : Nibble) (b : Byte) : (s.writeV x b).i = s.i := rfl
@[simp] theorem State.writeV_pc (x : Nibble) (b : Byte) : (s.writeV x b).pc = s.pc := rfl
@[simp] theorem State.writeV_dt (x : Nibble) (b : Byte) : (s.writeV x b).dt = s.dt := rfl
@[simp] theorem State.writeV_st (x : Nibble) (b : Byte) : (s.writeV x b).st = s.st := rfl
@[simp] theorem State.writeV_stack (x : Nibble) (b : Byte) : (s.writeV x b).stack = s.stack := rfl
@[simp] theorem State.writeV_mem (x : Nibble) (b : Byte) : (s.writeV x b).mem = s.mem := rfl
@[simp] theorem State.writeV_disp (x : Nibble) (b : Byte) : (s.writeV x b).disp = s.disp := rfl
@[simp] theorem State.writeV_latch (x : Nibble) (b : Byte) : (s.writeV x b).latch = s.latch := rfl
@[simp] theorem State.writeV_status (x : Nibble) (b : Byte) : (s.writeV x b).status = s.status := rfl
@[simp] theorem State.writeV_draws (x : Nibble) (b : Byte) : (s.writeV x b).draws = s.draws := rfl

@[simp] theorem State.writeRegs_i (bs : List Byte) : (s.writeRegs bs).i = s.i := rfl
@[simp] theorem State.writeRegs_pc (bs : List Byte) : (s.writeRegs bs).pc = s.pc := rfl
@[simp] theorem State.writeRegs_dt (bs : List Byte) : (s.writeRegs bs).dt = s.dt := rfl
@[simp] theorem State.writeRegs_st (bs : List Byte) : (s.writeRegs bs).st = s.st := rfl
@[simp] theorem State.writeRegs_stack (bs : List Byte) : (s.writeRegs bs).stack = s.stack := rfl
@[simp] theorem State.writeRegs_mem (bs : List Byte) : (s.writeRegs bs).mem = s.mem := rfl
@[simp] theorem State.writeRegs_disp (bs : List Byte) : (s.writeRegs bs).disp = s.disp := rfl
@[simp] theorem State.writeRegs_latch (bs : List Byte) : (s.writeRegs bs).latch = s.latch := rfl
@[simp] theorem State.writeRegs_status (bs : List Byte) : (s.writeRegs bs).status = s.status := rfl
@[simp] theorem State.writeRegs_draws (bs : List Byte) : (s.writeRegs bs).draws = s.draws := rfl

@[simp] theorem State.advance_v : (s.advance).v = s.v := rfl
@[simp] theorem State.advance_i : (s.advance).i = s.i := rfl
@[simp] theorem State.advance_dt : (s.advance).dt = s.dt := rfl
@[simp] theorem State.advance_st : (s.advance).st = s.st := rfl
@[simp] theorem State.advance_stack : (s.advance).stack = s.stack := rfl
@[simp] theorem State.advance_mem : (s.advance).mem = s.mem := rfl
@[simp] theorem State.advance_disp : (s.advance).disp = s.disp := rfl
@[simp] theorem State.advance_latch : (s.advance).latch = s.latch := rfl
@[simp] theorem State.advance_status : (s.advance).status = s.status := rfl
@[simp] theorem State.advance_draws : (s.advance).draws = s.draws := rfl

@[simp] theorem State.skipIf_v (c : Bool) : (s.skipIf c).v = s.v := rfl
@[simp] theorem State.skipIf_i (c : Bool) : (s.skipIf c).i = s.i := rfl
@[simp] theorem State.skipIf_dt (c : Bool) : (s.skipIf c).dt = s.dt := rfl
@[simp] theorem State.skipIf_st (c : Bool) : (s.skipIf c).st = s.st := rfl
@[simp] theorem State.skipIf_stack (c : Bool) : (s.skipIf c).stack = s.stack := rfl
@[simp] theorem State.skipIf_mem (c : Bool) : (s.skipIf c).mem = s.mem := rfl
@[simp] theorem State.skipIf_disp (c : Bool) : (s.skipIf c).disp = s.disp := rfl
@[simp] theorem State.skipIf_latch (c : Bool) : (s.skipIf c).latch = s.latch := rfl
@[simp] theorem State.skipIf_status (c : Bool) : (s.skipIf c).status = s.status := rfl
@[simp] theorem State.skipIf_draws (c : Bool) : (s.skipIf c).draws = s.draws := rfl

@[simp] theorem State.drawn_v : (s.drawn).v = s.v := rfl
@[simp] theorem State.drawn_i : (s.drawn).i = s.i := rfl
@[simp] theorem State.drawn_pc : (s.drawn).pc = s.pc := rfl
@[simp] theorem State.drawn_dt : (s.drawn).dt = s.dt := rfl
@[simp] theorem State.drawn_st : (s.drawn).st = s.st := rfl
@[simp] theorem State.drawn_stack : (s.drawn).stack = s.stack := rfl
@[simp] theorem State.drawn_mem : (s.drawn).mem = s.mem := rfl
@[simp] theorem State.drawn_disp : (s.drawn).disp = s.disp := rfl
@[simp] theorem State.drawn_latch : (s.drawn).latch = s.latch := rfl
@[simp] theorem State.drawn_status : (s.drawn).status = s.status := rfl

@[simp] theorem State.advance_pc : s.advance.pc = s.pc + 2#16 := rfl
@[simp] theorem State.skipIf_pc (c : Bool) : (s.skipIf c).pc = s.pc + if c then 4#16 else 2#16 := rfl
@[simp] theorem State.drawn_draws : s.drawn.draws = s.draws + 1 := rfl

@[simp] theorem State.readV_setI (a : Word) (x : Nibble) : (s.setI a).readV x = s.readV x := rfl
@[simp] theorem State.readV_setPc (a : Word) (x : Nibble) : (s.setPc a).readV x = s.readV x := rfl
@[simp] theorem State.readV_setDt (a : Byte) (x : Nibble) : (s.setDt a).readV x = s.readV x := rfl
@[simp] theorem State.readV_setSt (a : Byte) (x : Nibble) : (s.setSt a).readV x = s.readV x := rfl
@[simp] theorem State.readV_setStack (a : List Word) (x : Nibble) : (s.setStack a).readV x = s.readV x := rfl
@[simp] theorem State.readV_setMem (a : Memory) (x : Nibble) : (s.setMem a).readV x = s.readV x := rfl
@[simp] theorem State.readV_setDisp (a : Display) (x : Nibble) : (s.setDisp a).readV x = s.readV x := rfl
@[simp] theorem State.readV_setLatch (a : Option Nibble) (x : Nibble) : (s.setLatch a).readV x = s.readV x := rfl
@[simp] theorem State.readV_setStatus (a : Status) (x : Nibble) : (s.setStatus a).readV x = s.readV x := rfl
@[simp] theorem State.readV_setDraws (a : Nat) (x : Nibble) : (s.setDraws a).readV x = s.readV x := rfl
@[simp] theorem State.readV_advance (x : Nibble) : s.advance.readV x = s.readV x := rfl
@[simp] theorem State.readV_skipIf (c : Bool) (x : Nibble) : (s.skipIf c).readV x = s.readV x := rfl
@[simp] theorem State.readV_drawn (x : Nibble) : s.drawn.readV x = s.readV x := rfl

/-- A register write, read back: the new value in that register, every other as before. -/
theorem State.readV_writeV (x r : Nibble) (b : Byte) :
    (s.writeV x b).readV r = if r = x then b else s.readV r := by
  unfold State.readV State.writeV
  simp only [State.setV_v, Vector.getElem_set, BitVec.toNat_inj]
  split <;> rename_i h <;> simp [h, eq_comm]

@[simp] theorem State.readV_writeV_same (x : Nibble) (b : Byte) : (s.writeV x b).readV x = b := by
  simp [State.readV_writeV]

theorem State.readV_writeV_ne (x r : Nibble) (b : Byte) (h : r ≠ x) :
    (s.writeV x b).readV r = s.readV r := by
  simp [State.readV_writeV, h]

/-- A register of a file that `setV` puts in place. -/
theorem State.readV_setV (a : RegFile) (x : Nibble) : (s.setV a).readV x = a[x.toNat] := rfl

/-- Registers written from a list: one per listed byte, from V0 on; the rest as before. -/
theorem State.readV_writeRegs (bs : List Byte) (x : Nibble) :
    (s.writeRegs bs).readV x = bs.getD x.toNat (s.readV x) := by
  simp [State.readV, State.writeRegs]

end Sys2Proof.Machine
end

