-- ==== Sys2Proof/Laws/Ops.lean ====
section
/-! SUPPORT. What each shared operation can do: the stack controller, the display engine, the row loop of
Dxyn, the latch query, taking a fault. -/

namespace Sys2Proof.Machine

/-! ## The stack controller -/

theorem push_cases (s : State) (a : Word) :
    (s.stack.length < Config.stackDepth ∧ push s a = .ok (s.setStack (s.stack ++ [a]))) ∨
      (Config.stackDepth ≤ s.stack.length ∧ push s a = .error .stackOverflow) := by
  unfold push
  by_cases h : Config.stackDepth ≤ s.stack.length
  · exact .inr ⟨h, if_pos h⟩
  · exact .inl ⟨by omega, if_neg h⟩

theorem pop_nil (s : State) (h : s.stack = []) : pop s = .error .stackUnderflow := by
  simp [pop, h]

theorem pop_append (s : State) (as : List Word) (a : Word) (h : s.stack = as ++ [a]) :
    pop s = .ok (a, s.setStack as) := by
  simp [pop, h]

theorem pop_cases (s : State) :
    (s.stack = [] ∧ pop s = .error .stackUnderflow) ∨
      ∃ as a, s.stack = as ++ [a] ∧ pop s = .ok (a, s.setStack as) := by
  rcases List.eq_nil_or_concat s.stack with h | ⟨as, a, h⟩
  · exact .inl ⟨h, pop_nil s h⟩
  · rw [List.concat_eq_append] at h
    exact .inr ⟨as, a, h, pop_append s as a h⟩

/-! ## Where a sprite falls -/

theorem spriteCol_eq (cx col j : Nat) (hj : j < 64) :
    spriteCol cx col = j ↔ col % 64 = (cx + j) % 64 := by
  unfold spriteCol; omega

theorem spriteRow_eq (cy row r : Nat) (hr : r < 32) :
    spriteRow cy row = r ↔ row % 32 = (cy + r) % 32 := by
  unfold spriteRow; omega

theorem decide_spriteRow_eq (cy row r : Nat) (hr : r < 32) :
    decide (row % 32 = (cy + r) % 32) = decide (spriteRow cy row = r) :=
  decide_eq_decide.2 (spriteRow_eq cy row r hr).symm

theorem spriteRow_lt (cy row : Nat) : spriteRow cy row < 32 := Nat.mod_lt _ (by decide)

/-! ## The display engine -/

theorem pixel_displayClear (col row : Nat) : pixel displayClear col row = false := by
  simp [pixel, displayClear]

theorem pixel_mod (d : Display) (c r : Nat) : pixel d (c % 64) (r % 32) = pixel d c r := by
  simp [pixel, rowIndex, Config.displayW, Config.displayH]

/-- One XOR changes the one pixel, coordinates taken modulo. -/
theorem pixel_xorPixel (d : Display) (col row c r : Nat) (v : Bool) :
    pixel (xorPixel d col row v) c r =
      (pixel d c r ^^ (decide (r % 32 = row % 32) && decide (c % 64 = col % 64) && v)) := by
  cases v with
  | false => simp [xorPixel]
  | true =>
    simp only [xorPixel, pixel, rowIndex, Config.displayW, Config.displayH, if_true,
      Fin.getElem_fin, Vector.getElem_set]
    by_cases hr : r % 32 = row % 32
    · simp only [hr, if_true, BitVec.getLsbD_xor, BitVec.getLsbD_twoPow, decide_true,
        Bool.and_true, Bool.true_and]
      by_cases hc : c % 64 = col % 64
      · simp [hc, Nat.mod_lt col (show 0 < 64 by decide)]
      · simp [hc, Ne.symm hc]
    · simp [hr, Ne.symm hr]

/-- A XOR of a display with one sprite byte, cut to the first `k` columns. -/
theorem drawPixel_fold (d : Display) (x y : Nat) (b : Byte) (k : Nat) (hk : k ≤ 8) :
    (∀ c r, pixel ((List.range k).foldl (drawPixel x y b) (d, false)).1 c r =
      (pixel d c r ^^ (decide (r % 32 = y % 32) && decide (spriteCol x c < k) &&
        spriteBit b (spriteCol x c)))) ∧
    (((List.range k).foldl (drawPixel x y b) (d, false)).2 = true ↔
      ∃ j, j < k ∧ pixel d (x + j) y = true ∧ spriteBit b j = false) := by
  induction k with
  | zero => simp
  | succ k ih =>
    obtain ⟨ih1, ih2⟩ := ih (by omega)
    rw [List.range_succ, List.foldl_append, List.foldl_cons, List.foldl_nil]
    constructor
    · intro c r
      simp only [drawPixel, pixel_xorPixel, ih1, ← spriteCol_eq x c k (by omega), Bool.xor_assoc]
      congr 1
      rcases Nat.lt_trichotomy (spriteCol x c) k with h | h | h
      · simp [h, Nat.ne_of_lt h, Nat.lt_succ_of_lt h]
      · simp [h]
      · simp [Nat.not_lt.2 (Nat.le_of_lt h), Nat.ne_of_gt h, Nat.not_le.2 h]
    · have hold : pixel ((List.range k).foldl (drawPixel x y b) (d, false)).1 (x + k) y =
          pixel d (x + k) y := by
        rw [ih1, (spriteCol_eq x (x + k) k (by omega)).2 rfl]
        simp
      simp only [drawPixel, hold, Bool.or_eq_true, ih2, Bool.and_eq_true, Bool.not_eq_true']
      constructor
      · rintro (⟨j, hj, h⟩ | h)
        · exact ⟨j, by omega, h⟩
        · exact ⟨k, by omega, h⟩
      · rintro ⟨j, hj, h⟩
        rcases Nat.lt_succ_iff_lt_or_eq.1 hj with hj | rfl
        · exact .inl ⟨j, hj, h⟩
        · exact .inr h

/-- A row draw, pixel by pixel (R192). -/
theorem pixel_displayDraw (d : Display) (x y : Nat) (b : Byte) (c r : Nat) :
    pixel (displayDraw d x y b).1 c r =
      (pixel d c r ^^ (decide (r % 32 = y % 32) && decide (spriteCol x c < 8) &&
        spriteBit b (spriteCol x c))) :=
  (drawPixel_fold d x y b 8 (by omega)).1 c r

/-- What a row draw reports (R193). -/
theorem displayDraw_collided (d : Display) (x y : Nat) (b : Byte) :
    (displayDraw d x y b).2 = true ↔
      ∃ j, j < 8 ∧ pixel d (x + j) y = true ∧ spriteBit b j = false :=
  (drawPixel_fold d x y b 8 (by omega)).2

/-- The display left after a fault of Dxyn: every pixel old or new (R236). -/
theorem pixel_residueDisplay (k : Nat) (old new : Display) (c r : Nat) :
    pixel (residueDisplay k old new) c r = pixel old c r ∨
      pixel (residueDisplay k old new) c r = pixel new c r := by
  have hlt : c % 64 < 64 := Nat.mod_lt _ (by decide)
  simp only [pixel, residueDisplay, rowIndex, Config.displayW, Config.displayH, Fin.getElem_fin,
    Vector.getElem_ofFn, BitVec.getLsbD_or, BitVec.getLsbD_and, BitVec.getLsbD_not, hlt,
    decide_true, Bool.true_and]
  generalize BitVec.getLsbD (Config.pixelResidue _ _) _ = m
  cases m <;> simp

/-! ## The row loop of Dxyn -/

/-- What the loop does from row `r` on, for `k` rows, when every row can be read: it finishes, each pixel
XORed with the row that falls on it, and reports a collision iff one was reported before or some row
collides with the display as it stood at the start. -/
theorem drawRows_done (m : Memory) (base cx cy k r : Nat) (d : Display) (c : Bool)
    (hk : r + k ≤ 32) (hm : k = 0 ∨ base + r + k ≤ Config.memSize) :
    ∃ d' c', drawRows m base cx cy k r d c = .done d' c' ∧
      (∀ col row, pixel d' col row = (pixel d col row ^^
        (decide (r ≤ spriteRow cy row) && decide (spriteRow cy row < r + k) &&
          decide (spriteCol cx col < 8) &&
          spriteBit (m.read (base + spriteRow cy row)) (spriteCol cx col)))) ∧
      (c' = true ↔ c = true ∨ ∃ q j, r ≤ q ∧ q < r + k ∧ j < 8 ∧
        pixel d (cx + j) (cy + q) = true ∧ spriteBit (m.read (base + q)) j = false) := by
  induction k generalizing r d c with
  | zero =>
    refine ⟨d, c, rfl, fun col row => ?_, ?_⟩
    · by_cases h : r ≤ spriteRow cy row
      · simp [Nat.not_lt.2 h]
      · simp [h]
    · constructor
      · exact .inl
      · rintro (h | ⟨q, j, h1, h2, _⟩)
        · exact h
        · omega
  | succ k ih =>
    have hm : base + r + (k + 1) ≤ Config.memSize := by omega
    rw [drawRows, memRead_ok m _ (by omega)]
    obtain ⟨d', c', heq, hpix, hcol⟩ := ih (r + 1) (displayDraw d cx (cy + r) (m.read (base + r))).1
      ((displayDraw d cx (cy + r) (m.read (base + r))).2 || c) (by omega) (by omega)
    refine ⟨d', c', heq, fun col row => ?_, ?_⟩
    · rw [hpix, pixel_displayDraw, decide_spriteRow_eq cy row r (by omega), Bool.xor_assoc,
        show r + 1 + k = r + (k + 1) by omega]
      congr 1
      rcases Nat.lt_trichotomy (spriteRow cy row) r with h | h | h
      · simp [Nat.ne_of_lt h, Nat.not_le.2 h, Nat.not_lt.2 (Nat.le_of_lt h)]
      · simp [h]
      · simp [Nat.ne_of_gt h, h, Nat.le_of_lt h]
    · have hrow : ∀ q j, r < q → q < r + (k + 1) →
          pixel (displayDraw d cx (cy + r) (m.read (base + r))).1 (cx + j) (cy + q) =
            pixel d (cx + j) (cy + q) := by
        intro q j h1 h2
        rw [pixel_displayDraw, show decide ((cy + q) % 32 = (cy + r) % 32) = false by
          rw [decide_eq_false_iff_not]; omega]
        simp
      rw [hcol, Bool.or_eq_true, displayDraw_collided]
      constructor
      · rintro ((⟨j, hj, h⟩ | h) | ⟨q, j, h1, h2, hj, hp, hb⟩)
        · exact .inr ⟨r, j, by omega, by omega, hj, h⟩
        · exact .inl h
        · exact .inr ⟨q, j, by omega, by omega, hj, by rwa [hrow q j (by omega) (by omega)] at hp, hb⟩
      · rintro (h | ⟨q, j, h1, h2, hj, hp, hb⟩)
        · exact .inl (.inr h)
        · rcases Nat.eq_or_lt_of_le h1 with rfl | h1
          · exact .inl (.inl ⟨j, hj, hp, hb⟩)
          · exact .inr ⟨q, j, by omega, by omega, hj, by rwa [hrow q j h1 h2], hb⟩

/-- What the loop does when some row cannot be read: it stops at the first address past the memory, with
the rows before it drawn. -/
theorem drawRows_stopped (m : Memory) (base cx cy k r : Nat) (d : Display) (c : Bool)
    (hk : r + k ≤ 32) (hk0 : 0 < k) (hm : Config.memSize < base + r + k) :
    ∃ d', drawRows m base cx cy k r d c = .stopped (.outOfBounds (max (base + r) Config.memSize)) d' ∧
      (∀ col row, pixel d' col row = (pixel d col row ^^
        (decide (r ≤ spriteRow cy row) && decide (base + spriteRow cy row < Config.memSize) &&
          decide (spriteCol cx col < 8) &&
          spriteBit (m.read (base + spriteRow cy row)) (spriteCol cx col)))) := by
  induction k generalizing r d c with
  | zero => omega
  | succ k ih =>
    by_cases hb : Config.memSize ≤ base + r
    · rw [drawRows, memRead_error m _ hb]
      refine ⟨d, by rw [Nat.max_eq_left hb], fun col row => ?_⟩
      by_cases h : r ≤ spriteRow cy row
      · simp [show ¬ base + spriteRow cy row < Config.memSize by omega]
      · simp [h]
    · rw [drawRows, memRead_ok m _ (by omega)]
      obtain ⟨d', heq, hpix⟩ := ih (r + 1) (displayDraw d cx (cy + r) (m.read (base + r))).1
        ((displayDraw d cx (cy + r) (m.read (base + r))).2 || c) (by omega) (by omega) (by omega)
      refine ⟨d', ?_, fun col row => ?_⟩
      · simp only [heq, Drawn.stopped.injEq, FaultInfo.outOfBounds.injEq, and_true]
        omega
      · rw [hpix, pixel_displayDraw, decide_spriteRow_eq cy row r (by omega), Bool.xor_assoc]
        congr 1
        rcases Nat.lt_trichotomy (spriteRow cy row) r with h | h | h
        · simp [Nat.ne_of_lt h, Nat.not_le.2 h, Nat.not_lt.2 (Nat.le_of_lt h)]
        · simp [h, Nat.lt_of_not_le hb]
        · simp [Nat.ne_of_gt h, h, Nat.le_of_lt h]

/-! ## The registers left after a fault of Fx65 -/

theorem readV_residueRegs (k : Nat) (m : Memory) (base : Nat) (x r : Nibble) (s : State) :
    (s.setV (residueRegs k m base x s.v)).readV r = s.readV r ∨
      (r.toNat ≤ x.toNat ∧ base + r.toNat < Config.memSize ∧
        (s.setV (residueRegs k m base x s.v)).readV r = m.read (base + r.toNat)) := by
  rw [State.readV_setV]
  simp only [residueRegs, Vector.getElem_ofFn, State.readV, Fin.getElem_fin]
  split
  · rename_i h
    simp only [Bool.and_eq_true, decide_eq_true_eq] at h
    exact .inr ⟨h.1.2, h.2, rfl⟩
  · exact .inl rfl

/-! ## The list of V0..Vx -/

@[simp] theorem State.length_regsUpTo (s : State) (x : Nibble) :
    (s.regsUpTo x).length = x.toNat + 1 := by
  simp only [State.regsUpTo, List.length_take, Vector.length_toList]
  omega

theorem State.getElem_regsUpTo (s : State) (x r : Nibble)
    (h : r.toNat < (s.regsUpTo x).length) : (s.regsUpTo x)[r.toNat] = s.readV r := by
  simp [State.regsUpTo, State.readV]

/-! ## The latch and taking a fault -/

theorem State.isKeyPressed_iff (s : State) (b : Byte) :
    s.isKeyPressed b = true ↔ ∃ k, s.latch = some k ∧ k.toNat = b.toNat := by
  unfold State.isKeyPressed
  cases s.latch with
  | none => simp
  | some k =>
    simp only [beq_iff_eq, Option.some.injEq, exists_eq_left']
    rw [← BitVec.toNat_inj]
    simp only [BitVec.toNat_setWidth]
    have := k.isLt
    omega

/-- Taking a fault: the status and nothing else (R235, R236). -/
theorem raise_eq (e : FaultInfo) (s : State) :
    raise e s = .next (s.setStatus (.halted ⟨e, s.pc⟩)) := rfl

end Sys2Proof.Machine
end

