-- ==== Sys2Proof/Laws/Exec.lean ====
section
/-! SUPPORT. What the instructions that can end in more than one way, and the step around them, can do: one
inversion lemma each, so that no proof unfolds them again. -/

namespace Sys2Proof.Machine

/-! ## Stating a frame -/

/-- A frame field by field; a listed field asks for nothing. -/
theorem onlyChanges_intro {fs : List Field} {s t : State}
    (hv : Field.v ∉ fs → ∀ r, t.readV r = s.readV r)
    (hi : Field.i ∉ fs → t.i = s.i) (hpc : Field.pc ∉ fs → t.pc = s.pc)
    (hdt : Field.dt ∉ fs → t.dt = s.dt) (hst : Field.st ∉ fs → t.st = s.st)
    (hstack : Field.stack ∉ fs → t.stack = s.stack)
    (hmem : Field.mem ∉ fs → ∀ a, t.mem.read a = s.mem.read a)
    (hdisp : Field.disp ∉ fs → ∀ col row, pixel t.disp col row = pixel s.disp col row)
    (hlatch : Field.latch ∉ fs → t.latch = s.latch)
    (hstatus : Field.status ∉ fs → t.status = s.status)
    (hdraws : Field.draws ∉ fs → t.draws = s.draws) : OnlyChanges fs s t := by
  intro f hf
  cases f
  · exact hv hf
  · exact hi hf
  · exact hpc hf
  · exact hdt hf
  · exact hst hf
  · exact hstack hf
  · exact hmem hf
  · exact hdisp hf
  · exact hlatch hf
  · exact hstatus hf
  · exact hdraws hf

/-! ## The shared operations, inverted -/

theorem memWrite_eq_ok {m m' : Memory} {a : Nat} {d : List Byte} (h : memWrite m a d = .ok m') :
    a + d.length < Config.memSize ∧ m' = m.writeBytes a d := by
  rcases memWrite_cases m a d with ⟨h1, h2⟩ | ⟨_, h2⟩ <;> rw [h2] at h <;> cases h
  exact ⟨h1, rfl⟩

theorem fetch_ok (s : State) (h : s.pc.toNat + 1 < Config.memSize) :
    fetch s = .ok (wordOfBytes (s.mem.read s.pc.toNat) (s.mem.read (s.pc.toNat + 1))) := by
  unfold fetch
  rw [memRead_ok _ _ (by omega), memRead_ok _ _ h]

theorem fetch_error (s : State) (h : Config.memSize ≤ s.pc.toNat + 1) :
    ∃ e, fetch s = .error e := by
  unfold fetch
  by_cases h0 : Config.memSize ≤ s.pc.toNat
  · exact ⟨_, by rw [memRead_error _ _ h0]⟩
  · exact ⟨_, by rw [memRead_ok _ _ (by omega), memRead_error _ _ h]⟩

/-! ## The instructions with more than one end -/

theorem exec_ret_cases {u : Nibble} {s t : State} (h : exec (.ret u) s = .next t) :
    (s.stack = [] ∧ t = s.setStatus (.halted ⟨.stackUnderflow, s.pc⟩)) ∨
      ∃ as a, s.stack = as ++ [a] ∧ t = (s.setStack as).setPc a := by
  simp only [exec, execRet] at h
  rcases pop_cases s with ⟨h0, h1⟩ | ⟨as, a, h0, h1⟩ <;> rw [h1] at h
  · exact .inl ⟨h0, (Host.Outcome.next.inj h).symm⟩
  · exact .inr ⟨as, a, h0, (Host.Outcome.next.inj h).symm⟩

theorem exec_call_cases {nnn : Imm12} {s t : State} (h : exec (.call nnn) s = .next t) :
    (Config.stackDepth ≤ s.stack.length ∧ t = s.setStatus (.halted ⟨.stackOverflow, s.pc⟩)) ∨
      (s.stack.length < Config.stackDepth ∧
        t = (s.setStack (s.stack ++ [s.pc + 2#16])).setPc (nnnWord nnn)) := by
  simp only [exec, execCall] at h
  rcases push_cases s (s.pc + 2#16) with ⟨h0, h1⟩ | ⟨h0, h1⟩ <;> rw [h1] at h
  · exact .inr ⟨h0, (Host.Outcome.next.inj h).symm⟩
  · exact .inl ⟨h0, (Host.Outcome.next.inj h).symm⟩

theorem exec_ldB_cases {x : Nibble} {s t : State} (h : exec (.ldB x) s = .next t) :
    (∃ e, t = s.setStatus (.halted ⟨e, s.pc⟩)) ∨
      (s.dataAddr + 3 < Config.memSize ∧
        t = (s.setMem (s.mem.writeBytes s.dataAddr (decimalDigits (s.readV x)))).advance) := by
  simp only [exec, execLdB] at h
  split at h
  · exact .inl ⟨_, (Host.Outcome.next.inj h).symm⟩
  · rename_i e
    obtain ⟨h1, rfl⟩ := memWrite_eq_ok e
    exact .inr ⟨h1, (Host.Outcome.next.inj h).symm⟩

theorem exec_storeRegs_cases {x : Nibble} {s t : State} (h : exec (.storeRegs x) s = .next t) :
    (∃ e, t = s.setStatus (.halted ⟨e, s.pc⟩)) ∨
      (s.dataAddr + (x.toNat + 1) < Config.memSize ∧
        t = ((s.setMem (s.mem.writeBytes s.dataAddr (s.regsUpTo x))).setI (s.indexAfter x)).advance) := by
  simp only [exec, execStoreRegs] at h
  split at h
  · exact .inl ⟨_, (Host.Outcome.next.inj h).symm⟩
  · rename_i e
    obtain ⟨h1, rfl⟩ := memWrite_eq_ok e
    exact .inr ⟨by rwa [State.length_regsUpTo] at h1, (Host.Outcome.next.inj h).symm⟩

theorem exec_loadRegs_cases {x : Nibble} {s t : State} (h : exec (.loadRegs x) s = .next t) :
    (∃ e, t = ((s.setV (residueRegs s.draws s.mem s.dataAddr x s.v)).drawn).setStatus
        (.halted ⟨e, s.pc⟩)) ∨
      ∃ bs, memReadRange s.mem s.dataAddr (countOf x + 1) = .ok bs ∧
        t = ((s.writeRegs bs).setI (s.indexAfter x)).advance := by
  simp only [exec, execLoadRegs] at h
  split at h
  · exact .inl ⟨_, (Host.Outcome.next.inj h).symm⟩
  · rename_i e
    exact .inr ⟨_, e, (Host.Outcome.next.inj h).symm⟩

theorem exec_drw_cases {x y n : Nibble} {s t : State} (h : exec (.drw x y n) s = .next t) :
    (∃ d c, t = ((s.setDisp d).writeV vf (collisionFlag c)).advance) ∨
      ∃ e d, t = ((s.setDisp (residueDisplay s.draws s.disp d)).drawn).setStatus
        (.halted ⟨e, s.pc⟩) := by
  simp only [exec, execDrw] at h
  split at h
  · rename_i d c _
    exact .inl ⟨d, c, (Host.Outcome.next.inj h).symm⟩
  · rename_i e d _
    refine .inr ⟨e, d, ?_⟩
    simp only [raise_eq, State.drawn_pc, State.setDisp_pc] at h
    exact (Host.Outcome.next.inj h).symm

theorem exec_ldVxK_cases {x : Nibble} {s t : State} (h : exec (.ldVxK x) s = .next t) :
    (s.latch = none ∧ t = s) ∨
      ∃ k, s.latch = some k ∧ t = (s.writeV x (k.setWidth 8)).advance := by
  simp only [exec, execLdVxK] at h
  split at h
  · rename_i e
    exact .inr ⟨_, e, (Host.Outcome.next.inj h).symm⟩
  · rename_i e
    exact .inl ⟨e, (Host.Outcome.next.inj h).symm⟩

/-! ## The step -/

/-- A step either takes a fault where it stands, or runs the decoded word. -/
theorem step_cases {s t : State} (h : step s = .next t) :
    s.status = .running ∧
      ((∃ e, t = s.setStatus (.halted ⟨e, s.pc⟩)) ∨
        ∃ w i, s.pc.toNat + 1 < Config.memSize ∧ fetch s = .ok w ∧ decodeWord w = .instr i ∧
          exec i s = .next t) := by
  unfold step at h
  split at h
  · cases h
  · rename_i hr
    refine ⟨hr, ?_⟩
    by_cases hp : s.pc.toNat + 1 < Config.memSize
    · rw [fetch_ok s hp] at h
      dsimp only at h
      split at h
      · exact .inl ⟨_, (Host.Outcome.next.inj h).symm⟩
      · rename_i i hi
        exact .inr ⟨_, i, hp, fetch_ok s hp, hi, h⟩
    · obtain ⟨e, he⟩ := fetch_error s (by omega)
      rw [he] at h
      exact .inl ⟨_, (Host.Outcome.next.inj h).symm⟩

end Sys2Proof.Machine
end

