-- ==== Sys2Proof/Laws/HostPort.lean ====
section
/-! SUPPORT. What the host's side does, one lemma for each way an action ends: the STEP action by the answer
of the step, LOAD and SET_KEY by their cases, RESET and TICK field by field. -/

namespace Sys2Proof.Machine

/-! ## STEP -/

theorem Session.act_step_next {s t : State} (o : Bool) (h : step s = .next t) :
    Session.act ⟨s, o⟩ .step = (stepResponse t, ⟨t, false⟩) := by
  simp only [Session.act, Session.actStep, h]

theorem Session.act_step_refused {s : State} {r : Refusal} (o : Bool) (h : step s = .refused r) :
    Session.act ⟨s, o⟩ .step = (.refused r, ⟨s, o⟩) := by
  simp only [Session.act, Session.actStep, h]

theorem stepResponse_running {s : State} (h : s.status = .running) : stepResponse s = .ok := by
  simp only [stepResponse, h]

theorem stepResponse_halted {s : State} {r : FaultRecord} (h : s.status = .halted r) :
    stepResponse s = .stepFault r := by
  simp only [stepResponse, h]

/-- No step of a halted core (R112). -/
theorem step_of_halted {s : State} {r : FaultRecord} (h : s.status = .halted r) :
    Machine.step s = .refused .coreHalted := by
  simp only [Machine.step, h]

/-! ## LOAD -/

/-- The LOAD action writes memory and closes, or leaves the session as it is. -/
theorem Session.act_load_cases (s : State) (o : Bool) (image : List Byte) :
    (∃ m, o = true ∧ memWrite s.mem Config.entry.toNat image = .ok m ∧
        Session.act ⟨s, o⟩ (.load image) = (.ok, ⟨s.setMem m, false⟩)) ∨
      (∃ e, o = true ∧ memWrite s.mem Config.entry.toNat image = .error e ∧
        Session.act ⟨s, o⟩ (.load image) =
          (.loadFault (.loadOutOfBounds Config.entry.toNat), ⟨s, o⟩)) ∨
      (o = false ∧ Session.act ⟨s, o⟩ (.load image) = (.refused .loadClosed, ⟨s, o⟩)) := by
  cases o with
  | false => exact .inr (.inr ⟨rfl, rfl⟩)
  | true =>
    cases h : memWrite s.mem Config.entry.toNat image with
    | error e =>
      exact .inr (.inl ⟨e, rfl, rfl, by simp only [Session.act, Session.actLoad, State.load, h, if_true]⟩)
    | ok m =>
      exact .inl ⟨m, rfl, rfl, by simp only [Session.act, Session.actLoad, State.load, h, if_true]⟩

/-! ## SET_KEY -/

/-- The SET_KEY action replaces the latch, or is refused and leaves the session as it is. -/
theorem Session.act_setKey_cases (s : State) (o : Bool) (k : Option Nat) :
    (∃ l : Option Nibble, (∀ t : State, t.setKey k = .next (t.setLatch l)) ∧
        Session.act ⟨s, o⟩ (.setKey k) = (.ok, ⟨s.setLatch l, o⟩)) ∨
      (∃ n, k = some n ∧ (∀ t : State, t.setKey k = .refused (.keyOutOfRange n)) ∧
        Session.act ⟨s, o⟩ (.setKey k) = (.refused (.keyOutOfRange n), ⟨s, o⟩)) := by
  cases k with
  | none => exact .inl ⟨none, fun _ => rfl, rfl⟩
  | some n =>
    by_cases h : wellFormedKey (some n) = true
    · have hk : ∀ t : State, t.setKey (some n) = .next (t.setLatch (some (BitVec.ofNat 4 n))) :=
        fun t => by simp only [State.setKey, h, if_true]
      exact .inl ⟨_, hk, by simp only [Session.act, Session.actKey, hk]⟩
    · have hk : ∀ t : State, t.setKey (some n) = .refused (.keyOutOfRange n) :=
        fun t => if_neg h
      exact .inr ⟨n, rfl, hk, by simp only [Session.act, Session.actKey, hk]⟩

/-! ## RESET, TICK, FRAME, STATUS -/

section
variable (s : State)

@[simp] theorem State.afterReset_eq : s.afterReset = State.reset.setDraws s.draws := rfl

@[simp] theorem State.tick_dt : s.tick.dt = countDown s.dt := rfl
@[simp] theorem State.tick_st : s.tick.st = countDown s.st := rfl
@[simp] theorem State.tick_v : s.tick.v = s.v := rfl
@[simp] theorem State.tick_i : s.tick.i = s.i := rfl
@[simp] theorem State.tick_pc : s.tick.pc = s.pc := rfl
@[simp] theorem State.tick_stack : s.tick.stack = s.stack := rfl
@[simp] theorem State.tick_mem : s.tick.mem = s.mem := rfl
@[simp] theorem State.tick_disp : s.tick.disp = s.disp := rfl
@[simp] theorem State.tick_latch : s.tick.latch = s.latch := rfl
@[simp] theorem State.tick_status : s.tick.status = s.status := rfl
@[simp] theorem State.tick_draws : s.tick.draws = s.draws := rfl
@[simp] theorem State.readV_tick (r : Nibble) : s.tick.readV r = s.readV r := rfl

end

end Sys2Proof.Machine
end

