-- ==== Sys2Proof/Laws/PerInstr.lean ====
section
/-! SUPPORT. The statements made of every instruction as syntax, one lemma per constructor. -/

/-- A mnemonic names one row of the opcode map. -/
theorem Sys2Proof.opcodeMap_mnemonic_inj : ∀ row ∈ Sys2Proof.opcodeMap, ∀ row' ∈ Sys2Proof.opcodeMap,
    row.mnemonic = row'.mnemonic → row = row' := by
  decide

namespace Sys2Proof.Laws.EncodesItsRow

/-- The encoding of an instruction is a word of the opcode-map row that bears its mnemonic
(spec/30_encoding.md R86): its fixed bits are the row's. -/
def Statement (i : Instr) : Prop :=
  ∃ row ∈ opcodeMap, row.mnemonic = mnemonic i ∧ row.covers (encode i) = true

theorem of_row (i : Instr) (row : OpcodeRow) (h : row ∈ opcodeMap) (hm : row.mnemonic = mnemonic i)
    (hc : encode i &&& row.mask = row.pattern) : Statement i :=
  ⟨row, h, hm, by rw [OpcodeRow.covers, hc]; exact beq_self_eq_true _⟩

theorem cls (u : Nibble) : Statement (.cls u) :=
  of_row _ ⟨"CLS", 0xF0FF#16, Config.clsKK.setWidth 16⟩ (by decide) rfl ((Sys2Proof.formXKk_mask_kk _ _ _).trans (by decide))

theorem ret (u : Nibble) : Statement (.ret u) :=
  of_row _ ⟨"RET", 0xF0FF#16, 0x00EE#16⟩ (by decide) rfl ((Sys2Proof.formXKk_mask_kk _ _ _).trans (by decide))

theorem jp (nnn : Imm12) : Statement (.jp nnn) :=
  of_row _ ⟨"JP_nnn", 0xF000#16, 0x1000#16⟩ (by decide) rfl ((Sys2Proof.formNnn_mask _ _).trans (by decide))

theorem call (nnn : Imm12) : Statement (.call nnn) :=
  of_row _ ⟨"CALL_nnn", 0xF000#16, 0x2000#16⟩ (by decide) rfl ((Sys2Proof.formNnn_mask _ _).trans (by decide))

theorem seImm (x : Nibble) (kk : Byte) : Statement (.seImm x kk) :=
  of_row _ ⟨"SE_Vx__kk", 0xF000#16, 0x3000#16⟩ (by decide) rfl ((Sys2Proof.formXKk_mask _ _ _).trans (by decide))

theorem sneImm (x : Nibble) (kk : Byte) : Statement (.sneImm x kk) :=
  of_row _ ⟨"SNE_Vx__kk", 0xF000#16, 0x4000#16⟩ (by decide) rfl ((Sys2Proof.formXKk_mask _ _ _).trans (by decide))

theorem seReg (x y u : Nibble) : Statement (.seReg x y u) :=
  of_row _ ⟨"SE_Vx__Vy", 0xF000#16, 0x5000#16⟩ (by decide) rfl ((Sys2Proof.formXYN_mask _ _ _ _).trans (by decide))

theorem ldImm (x : Nibble) (kk : Byte) : Statement (.ldImm x kk) :=
  of_row _ ⟨"LD_Vx__kk", 0xF000#16, 0x6000#16⟩ (by decide) rfl ((Sys2Proof.formXKk_mask _ _ _).trans (by decide))

theorem addImm (x : Nibble) (kk : Byte) : Statement (.addImm x kk) :=
  of_row _ ⟨"ADD_Vx__kk", 0xF000#16, 0x7000#16⟩ (by decide) rfl ((Sys2Proof.formXKk_mask _ _ _).trans (by decide))

theorem ldReg (x y : Nibble) : Statement (.ldReg x y) :=
  of_row _ ⟨"LD_Vx__Vy", 0xF00F#16, 0x8000#16⟩ (by decide) rfl ((Sys2Proof.formXYN_mask_n _ _ _ _).trans (by decide))

theorem orReg (x y : Nibble) : Statement (.orReg x y) :=
  of_row _ ⟨"OR_Vx__Vy", 0xF00F#16, 0x8001#16⟩ (by decide) rfl ((Sys2Proof.formXYN_mask_n _ _ _ _).trans (by decide))

theorem andReg (x y : Nibble) : Statement (.andReg x y) :=
  of_row _ ⟨"AND_Vx__Vy", 0xF00F#16, 0x8002#16⟩ (by decide) rfl ((Sys2Proof.formXYN_mask_n _ _ _ _).trans (by decide))

theorem xorReg (x y : Nibble) : Statement (.xorReg x y) :=
  of_row _ ⟨"XOR_Vx__Vy", 0xF00F#16, 0x8003#16⟩ (by decide) rfl ((Sys2Proof.formXYN_mask_n _ _ _ _).trans (by decide))

theorem addReg (x y : Nibble) : Statement (.addReg x y) :=
  of_row _ ⟨"ADD_Vx__Vy", 0xF00F#16, 0x8004#16⟩ (by decide) rfl ((Sys2Proof.formXYN_mask_n _ _ _ _).trans (by decide))

theorem subReg (x y : Nibble) : Statement (.subReg x y) :=
  of_row _ ⟨"SUB_Vx__Vy", 0xF00F#16, 0x8005#16⟩ (by decide) rfl ((Sys2Proof.formXYN_mask_n _ _ _ _).trans (by decide))

theorem shr (x y : Nibble) : Statement (.shr x y) :=
  of_row _ ⟨"SHR_Vx", 0xF00F#16, 0x8006#16⟩ (by decide) rfl ((Sys2Proof.formXYN_mask_n _ _ _ _).trans (by decide))

theorem subn (x y : Nibble) : Statement (.subn x y) :=
  of_row _ ⟨"SUBN_Vx__Vy", 0xF00F#16, 0x8007#16⟩ (by decide) rfl ((Sys2Proof.formXYN_mask_n _ _ _ _).trans (by decide))

theorem shl (x y : Nibble) : Statement (.shl x y) :=
  of_row _ ⟨"SHL_Vx", 0xF00F#16, 0x800E#16⟩ (by decide) rfl ((Sys2Proof.formXYN_mask_n _ _ _ _).trans (by decide))

theorem sneReg (x y u : Nibble) : Statement (.sneReg x y u) :=
  of_row _ ⟨"SNE_Vx__Vy", 0xF000#16, 0x9000#16⟩ (by decide) rfl ((Sys2Proof.formXYN_mask _ _ _ _).trans (by decide))

theorem ldI (nnn : Imm12) : Statement (.ldI nnn) :=
  of_row _ ⟨"LD_I__nnn", 0xF000#16, 0xA000#16⟩ (by decide) rfl ((Sys2Proof.formNnn_mask _ _).trans (by decide))

theorem jpV0 (nnn : Imm12) : Statement (.jpV0 nnn) :=
  of_row _ ⟨"JP_V0__nnn", 0xF000#16, 0xB000#16⟩ (by decide) rfl ((Sys2Proof.formNnn_mask _ _).trans (by decide))

theorem rnd (x : Nibble) (kk : Byte) : Statement (.rnd x kk) :=
  of_row _ ⟨"RND_Vx__kk", 0xF000#16, 0xC000#16⟩ (by decide) rfl ((Sys2Proof.formXKk_mask _ _ _).trans (by decide))

theorem drw (x y n : Nibble) : Statement (.drw x y n) :=
  of_row _ ⟨"DRW_Vx__Vy__n", 0xF000#16, 0xD000#16⟩ (by decide) rfl ((Sys2Proof.formXYN_mask _ _ _ _).trans (by decide))

theorem skp (x : Nibble) : Statement (.skp x) :=
  of_row _ ⟨"SKP_Vx", 0xF0FF#16, 0xE09E#16⟩ (by decide) rfl ((Sys2Proof.formXKk_mask_kk _ _ _).trans (by decide))

theorem sknp (x : Nibble) : Statement (.sknp x) :=
  of_row _ ⟨"SKNP_Vx", 0xF0FF#16, 0xE0A1#16⟩ (by decide) rfl ((Sys2Proof.formXKk_mask_kk _ _ _).trans (by decide))

theorem ldVxDt (x : Nibble) : Statement (.ldVxDt x) :=
  of_row _ ⟨"LD_Vx__DT", 0xF0FF#16, 0xF007#16⟩ (by decide) rfl ((Sys2Proof.formXKk_mask_kk _ _ _).trans (by decide))

theorem ldVxK (x : Nibble) : Statement (.ldVxK x) :=
  of_row _ ⟨"LD_Vx__K", 0xF0FF#16, 0xF00A#16⟩ (by decide) rfl ((Sys2Proof.formXKk_mask_kk _ _ _).trans (by decide))

theorem ldDtVx (x : Nibble) : Statement (.ldDtVx x) :=
  of_row _ ⟨"LD_DT__Vx", 0xF0FF#16, 0xF015#16⟩ (by decide) rfl ((Sys2Proof.formXKk_mask_kk _ _ _).trans (by decide))

theorem ldStVx (x : Nibble) : Statement (.ldStVx x) :=
  of_row _ ⟨"LD_ST__Vx", 0xF0FF#16, 0xF018#16⟩ (by decide) rfl ((Sys2Proof.formXKk_mask_kk _ _ _).trans (by decide))

theorem addI (x : Nibble) : Statement (.addI x) :=
  of_row _ ⟨"ADD_I__Vx", 0xF0FF#16, 0xF01E#16⟩ (by decide) rfl ((Sys2Proof.formXKk_mask_kk _ _ _).trans (by decide))

theorem ldF (x : Nibble) : Statement (.ldF x) :=
  of_row _ ⟨"LD_F__Vx", 0xF0FF#16, 0xF029#16⟩ (by decide) rfl ((Sys2Proof.formXKk_mask_kk _ _ _).trans (by decide))

theorem ldB (x : Nibble) : Statement (.ldB x) :=
  of_row _ ⟨"LD_B__Vx", 0xF0FF#16, 0xF033#16⟩ (by decide) rfl ((Sys2Proof.formXKk_mask_kk _ _ _).trans (by decide))

theorem storeRegs (x : Nibble) : Statement (.storeRegs x) :=
  of_row _ ⟨"LD__I___Vx", 0xF0FF#16, 0xF055#16⟩ (by decide) rfl ((Sys2Proof.formXKk_mask_kk _ _ _).trans (by decide))

theorem loadRegs (x : Nibble) : Statement (.loadRegs x) :=
  of_row _ ⟨"LD_Vx___I", 0xF0FF#16, 0xF065#16⟩ (by decide) rfl ((Sys2Proof.formXKk_mask_kk _ _ _).trans (by decide))

end Sys2Proof.Laws.EncodesItsRow
end

