-- ==== Sys2Proof/Tests/Slice0.lean ====
section
/-! SUPPORT. The model's own tests: expected results are the vectors of spec/95_test_vectors.md (named in each
comment), or counted by hand from the rule named; then one witness for every statement with hypotheses. -/

namespace Sys2Proof.Tests

open Sys2Proof Sys2Proof.Machine

/-! ## Helpers -/

/-- The reset state with a word at 0x200, where pc is. -/
def at200 (w : Nat) : State := State.reset.withFetchWord 16 w

/-- A state with bytes in memory from an address on. -/
def poke (s : State) (a : Nat) (bs : List Byte) : State := s.setMem (s.mem.writeBytes a bs)

/-- A state with row 0, or another row, of the display replaced; bit `c` of the row is column `c`. -/
def row (s : State) (r : Fin 32) (b : BitVec 64) : State := s.setDisp (s.disp.set r b)

/-- What one step leaves, looked at through `f`; none if the step gives no next state. -/
def stepped {α : Type} (s : State) (f : State → α) : Option α := (nextState? (step s)).map f

/-- The reason an answer refuses, if it does. -/
def refusal? : Result → Option Refusal
  | .next _ => none
  | .fault _ => none
  | .refused r => some r

/-- A stack of `n` entries 0x202. -/
def deep (n : Nat) : List Word := List.replicate n 0x202#16

/-! ## Decoding: words written out from the patterns of spec/30_encoding.md R86 -/

/-- V-DEC-1, 2, 3, 4, 5, 6: family 0, the nibble `x` ignored. -/
theorem test_decode_family0 :
    decodeWord 0x000E#16 = .instr (.cls 0x0) ∧ decodeWord 0x0F0E#16 = .instr (.cls 0xF) ∧
    decodeWord 0x00EE#16 = .instr (.ret 0x0) ∧ decodeWord 0x05EE#16 = .instr (.ret 0x5) ∧
    decodeWord 0x00E0#16 = .illegal (.family0 0x00E0) ∧
    decodeWord 0x0000#16 = .illegal (.family0 0x0000) ∧
    decodeWord 0x0ABC#16 = .illegal (.family0 0x0ABC) := by decide

/-- V-DEC-7, 8, 9 and R86 rows 3 to 9 and 19 to 23. -/
theorem test_decode_one_level :
    decodeWord 0x1ABC#16 = .instr (.jp 0xABC) ∧ decodeWord 0x2DEF#16 = .instr (.call 0xDEF) ∧
    decodeWord 0x3A15#16 = .instr (.seImm 0xA 0x15) ∧ decodeWord 0x4B26#16 = .instr (.sneImm 0xB 0x26) ∧
    decodeWord 0x5AB7#16 = .instr (.seReg 0xA 0xB 0x7) ∧ decodeWord 0x6C37#16 = .instr (.ldImm 0xC 0x37) ∧
    decodeWord 0x7D48#16 = .instr (.addImm 0xD 0x48) ∧ decodeWord 0x9AB3#16 = .instr (.sneReg 0xA 0xB 0x3) ∧
    decodeWord 0xA123#16 = .instr (.ldI 0x123) ∧ decodeWord 0xB456#16 = .instr (.jpV0 0x456) ∧
    decodeWord 0xC30F#16 = .instr (.rnd 0x3 0x0F) ∧ decodeWord 0xD12F#16 = .instr (.drw 0x1 0x2 0xF) := by
  decide

/-- V-DEC-10, 11 and R88. -/
theorem test_decode_family8 :
    decodeWord 0x8AB0#16 = .instr (.ldReg 0xA 0xB) ∧ decodeWord 0x8AB1#16 = .instr (.orReg 0xA 0xB) ∧
    decodeWord 0x8AB2#16 = .instr (.andReg 0xA 0xB) ∧ decodeWord 0x8AB3#16 = .instr (.xorReg 0xA 0xB) ∧
    decodeWord 0x8AB4#16 = .instr (.addReg 0xA 0xB) ∧ decodeWord 0x8AB5#16 = .instr (.subReg 0xA 0xB) ∧
    decodeWord 0x8AB6#16 = .instr (.shr 0xA 0xB) ∧ decodeWord 0x8AB7#16 = .instr (.subn 0xA 0xB) ∧
    decodeWord 0x8ABE#16 = .instr (.shl 0xA 0xB) ∧ decodeWord 0x8AB8#16 = .illegal (.family8 0x8AB8) ∧
    decodeWord 0x8ABD#16 = .illegal (.family8 0x8ABD) ∧ decodeWord 0x8ABF#16 = .illegal (.family8 0x8ABF) := by
  decide

/-- V-DEC-12 to 15. -/
theorem test_decode_families_E_F :
    decodeWord 0xE09E#16 = .instr (.skp 0x0) ∧ decodeWord 0xE0A1#16 = .instr (.sknp 0x0) ∧
    decodeWord 0xE0A0#16 = .illegal (.familyE 0xE0A0) ∧ decodeWord 0xF007#16 = .instr (.ldVxDt 0x0) ∧
    decodeWord 0xF00A#16 = .instr (.ldVxK 0x0) ∧ decodeWord 0xF015#16 = .instr (.ldDtVx 0x0) ∧
    decodeWord 0xF018#16 = .instr (.ldStVx 0x0) ∧ decodeWord 0xF01E#16 = .instr (.addI 0x0) ∧
    decodeWord 0xF029#16 = .instr (.ldF 0x0) ∧ decodeWord 0xF033#16 = .instr (.ldB 0x0) ∧
    decodeWord 0xF055#16 = .instr (.storeRegs 0x0) ∧ decodeWord 0xF065#16 = .instr (.loadRegs 0x0) ∧
    decodeWord 0xF066#16 = .illegal (.familyF 0xF066) := by decide

/-- Bytes: the high byte first, the rest left over; one byte is no instruction (R80, R81). -/
theorem test_decode_bytes :
    decode [0x83, 0x44, 0x12] = (.instr (.addReg 0x3 0x4), [0x12]) ∧
    decode [0x83] = (.illegal (.truncated 1), [0x83]) ∧ decode [] = (.illegal (.truncated 0), []) := by decide

/-- Words encoded by hand from R86, the example of R96 among them. -/
theorem test_encode :
    encode (.drw 0x0 0x1 0x5) = 0xD015#16 ∧ encode (.addReg 0x3 0x4) = 0x8344#16 ∧
    encode (.loadRegs 0x3) = 0xF365#16 ∧ encode (.jp 0xABC) = 0x1ABC#16 ∧ encode (.skp 0x1) = 0xE19E#16 := by
  decide

/-- Rows of the opcode map never share a word (R86): some bit fixed by both has two values. -/
theorem test_opcode_rows_are_disjoint :
    opcodeMap.Pairwise fun a b => a.pattern &&& (a.mask &&& b.mask) ≠ b.pattern &&& (a.mask &&& b.mask) := by
  decide

/-- There are 34 rows (R86). -/
theorem test_opcode_map_has_34_rows : opcodeMap.length = 34 := by decide

/-! ## Well-formedness: what the checks refuse (R262, R10) -/

/-- V-MEM-8, 9: 3583 bytes fit, 3584 do not. -/
theorem test_wellFormed_image :
    wellFormedImage (List.replicate 3583 0x00) = true ∧
    wellFormedImage (List.replicate 3584 0x00) = false :=
  ⟨decide_eq_true (by rw [List.length_replicate]; decide),
    decide_eq_false (by rw [List.length_replicate]; decide)⟩

/-- V-HOST-7: key 16 is refused, 15 and none are not. -/
theorem test_wellFormed_key :
    wellFormedKey (some 15) = true ∧ wellFormedKey none = true ∧ wellFormedKey (some 16) = false ∧
    refusal? (State.reset.setKey (some 16)) = some (.keyOutOfRange 16) := by decide

/-! ## Memory, stack, fetch -/

/-- V-MEM-1 to 7. -/
theorem test_memory_controller :
    memRead [] 0xFFF = .ok 0x00 ∧ memRead [] 0x1000 = .error (.outOfBounds 0x1000) ∧
    memWrite [] 0xFFE [0x7F] = .ok [(0xFFE, 0x7F)] ∧
    memWrite [] 0xFFD [0xCC, 0xDD] = .ok [(0xFFD, 0xCC), (0xFFE, 0xDD)] ∧
    memWrite [] 0xFFE [0x01, 0x02] = .error (.outOfBounds 0xFFE) ∧
    memWrite [] 0xFFF [0x00] = .error (.outOfBounds 0xFFF) ∧
    memWrite [] 0x000 [0xAA] = .ok [(0x000, 0xAA)] := by decide

/-- Writing what an unlisted address reads as removes the entry: 0xF0 at 0x000 (the font), 0x00 at 0x300. -/
theorem test_memory_canonical :
    Memory.write [(0x000, 0xAA)] 0x000 0xF0 = [] ∧ Memory.write [(0x2FF, 0x01), (0x300, 0x09)] 0x300 0x00 =
      [(0x2FF, 0x01)] ∧ Memory.wf [(0x300, 0x01), (0x2FF, 0x01)] = false ∧
    Memory.wf [(0x300, 0x00)] = false := by decide

/-- V-STK-1, 4: entries go on at the end and come off there. -/
theorem test_stack :
    (push State.reset 0x202).map (fun s => s.stack) = .ok [0x202] ∧
    (pop (State.reset.setStack [0x202, 0x304])).map (fun p => (p.1, p.2.stack)) = .ok (0x304, [0x202]) := by
  decide

/-- V-FLT-4: the word at 0xFFE has low byte 0x00. -/
theorem test_fetch_at_FFE :
    stepped ((poke State.reset 0xFFE [0x12]).setPc 0xFFE) (fun t => t.pc) = some 0x200 := by decide

/-- V-FLT-5, 6, 1: the recorded addresses and word. -/
theorem test_fetch_faults :
    stepped (State.reset.setPc 0xFFF) (fun t => t.status) = some (.halted ⟨.outOfBounds 0x1000, 0xFFF⟩) ∧
    stepped (State.reset.setPc 0x1000) (fun t => t.status) = some (.halted ⟨.outOfBounds 0x1000, 0x1000⟩) ∧
    stepped State.reset (fun t => (t.status, t.pc)) =
      some (.halted ⟨.unknownInstruction 0x0000, 0x200⟩, 0x200) := by decide

/-- V-FLT-7. -/
theorem test_halted_step_refused :
    refusal? (step ((at200 0x6001).setStatus (.halted ⟨.stackOverflow, 0x200⟩))) = some .coreHalted := by
  decide

/-! ## Control flow (V-CF) -/

/-- V-CF-1. -/
theorem test_jp : stepped (at200 0x1234) (fun t => t.pc) = some 0x234 := by decide

/-- V-CF-4. -/
theorem test_call : stepped (at200 0x2300) (fun t => (t.pc, t.stack)) = some (0x300, [0x202]) := by decide

/-- V-CF-7, 8. -/
theorem test_call_depth :
    stepped ((at200 0x2300).setStack (deep 15)) (fun t => (t.pc, t.stack)) = some (0x300, deep 16) ∧
    stepped ((at200 0x2300).setStack (deep 16)) (fun t => (t.status, t.pc)) =
      some (.halted ⟨.stackOverflow, 0x200⟩, 0x200) := by decide

/-- V-CF-9, 6: RET whatever `x` is, and on an empty stack. -/
theorem test_ret :
    stepped ((at200 0x0FEE).setStack [0x202, 0x304]) (fun t => (t.pc, t.stack)) = some (0x304, [0x202]) ∧
    stepped (at200 0x00EE) (fun t => (t.status, t.pc)) = some (.halted ⟨.stackUnderflow, 0x200⟩, 0x200) := by
  decide

/-- V-CF-10, 11. -/
theorem test_se_imm :
    stepped ((at200 0x3215).writeV 2 0x15) (fun t => t.pc) = some 0x204 ∧
    stepped ((at200 0x3215).writeV 2 0x16) (fun t => t.pc) = some 0x202 := by decide

/-- V-CF-12, 13. -/
theorem test_sne_imm :
    stepped ((at200 0x4215).writeV 2 0x15) (fun t => t.pc) = some 0x202 ∧
    stepped ((at200 0x4216).writeV 2 0x15) (fun t => t.pc) = some 0x204 := by decide

/-- V-CF-15, 16. -/
theorem test_se_reg :
    stepped (((at200 0x5120).writeV 1 0x07).writeV 2 0x08) (fun t => t.pc) = some 0x202 ∧
    stepped (((at200 0x512F).writeV 1 0x07).writeV 2 0x07) (fun t => t.pc) = some 0x204 := by decide

/-- V-CF-17, 19. -/
theorem test_sne_reg :
    stepped (((at200 0x9120).writeV 1 0x07).writeV 2 0x08) (fun t => t.pc) = some 0x204 ∧
    stepped ((at200 0x9331).writeV 3 0x09) (fun t => t.pc) = some 0x202 := by decide

/-- V-CF-21, 22. -/
theorem test_jp_v0 :
    stepped ((at200 0xBFFF).writeV 0 0xFF) (fun t => t.pc) = some 0x10FE ∧
    stepped ((at200 0xB000).writeV 5 0x42) (fun t => t.pc) = some 0x000 := by decide

/-! ## ALU (V-ALU) -/

/-- V-ALU-2. -/
theorem test_ld_imm : stepped (at200 0x6F12) (fun t => (t.readV 0xF, t.pc)) = some (0x12, 0x202) := by decide

/-- V-ALU-3, 5: no flag, unless VF is Vx. -/
theorem test_add_imm :
    stepped (((at200 0x7302).writeV 3 0xFF).writeV 0xF 0x55) (fun t => (t.readV 3, t.readV 0xF)) =
      some (0x01, 0x55) ∧
    stepped ((at200 0x7F03).writeV 0xF 0xFE) (fun t => t.readV 0xF) = some 0x01 := by decide

/-- V-ALU-6. -/
theorem test_ld_reg : stepped ((at200 0x8120).writeV 2 0x33) (fun t => (t.readV 1, t.pc)) =
    some (0x33, 0x202) := by decide

/-- V-ALU-7. -/
theorem test_or : stepped ((((at200 0x8121).writeV 1 0x0F).writeV 2 0xF0).writeV 0xF 0x55)
    (fun t => (t.readV 1, t.readV 0xF)) = some (0xFF, 0x55) := by decide

/-- V-ALU-8. -/
theorem test_and : stepped ((((at200 0x8122).writeV 1 0x3C).writeV 2 0x0F).writeV 0xF 0x55)
    (fun t => (t.readV 1, t.readV 0xF)) = some (0x0C, 0x55) := by decide

/-- V-ALU-9. -/
theorem test_xor : stepped ((((at200 0x8123).writeV 1 0x3C).writeV 2 0x0F).writeV 0xF 0x55)
    (fun t => (t.readV 1, t.readV 0xF)) = some (0x33, 0x55) := by decide

/-- V-ALU-11, 13. -/
theorem test_add_reg :
    stepped (((at200 0x8124).writeV 1 0xFF).writeV 2 0x01) (fun t => (t.readV 1, t.readV 0xF)) =
      some (0x00, 0x01) ∧
    stepped ((((at200 0x8124).writeV 1 0x10).writeV 2 0x20).writeV 0xF 0x01)
      (fun t => (t.readV 1, t.readV 0xF)) = some (0x30, 0x00) := by decide

/-- V-ALU-14, 15: VF as the source and as the destination. -/
theorem test_add_reg_vf :
    stepped (((at200 0x81F4).writeV 1 0xFF).writeV 0xF 0x01) (fun t => (t.readV 1, t.readV 0xF)) =
      some (0x00, 0x01) ∧
    stepped (((at200 0x8F14).writeV 1 0x01).writeV 0xF 0xFF) (fun t => t.readV 0xF) = some 0x01 := by decide

/-- V-ALU-17, 19. -/
theorem test_sub :
    stepped ((((at200 0x8125).writeV 1 0x05).writeV 2 0x07).writeV 0xF 0x55)
      (fun t => (t.readV 1, t.readV 0xF)) = some (0xFE, 0x00) ∧
    stepped (((at200 0x8125).writeV 1 0x07).writeV 2 0x07) (fun t => (t.readV 1, t.readV 0xF)) =
      some (0x00, 0x01) := by decide

/-- V-ALU-21, 22. -/
theorem test_subn :
    stepped (((at200 0x8127).writeV 1 0x05).writeV 2 0x07) (fun t => (t.readV 1, t.readV 0xF)) =
      some (0x02, 0x01) ∧
    stepped ((((at200 0x8127).writeV 1 0x07).writeV 2 0x05).writeV 0xF 0x55)
      (fun t => (t.readV 1, t.readV 0xF)) = some (0xFE, 0x00) := by decide

/-- V-ALU-24, 27. -/
theorem test_shr :
    stepped (((at200 0x8126).writeV 1 0x05).writeV 2 0xAA) (fun t => (t.readV 1, t.readV 0xF)) =
      some (0x02, 0x01) ∧
    stepped ((at200 0x8FF6).writeV 0xF 0x03) (fun t => t.readV 0xF) = some 0x01 := by decide

/-- V-ALU-28, 30. -/
theorem test_shl :
    stepped ((at200 0x812E).writeV 1 0x81) (fun t => (t.readV 1, t.readV 0xF)) = some (0x02, 0x01) ∧
    stepped (((at200 0x810E).writeV 1 0x7F).writeV 0xF 0x01) (fun t => (t.readV 1, t.readV 0xF)) =
      some (0xFE, 0x00) := by decide

/-- V-ALU-33: whatever byte is drawn, `kk = 0` gives 0. -/
theorem test_rnd_zero_mask :
    (nextState? (exec (.rnd 0x3 0x00) (State.reset.writeV 3 0x55))).map (fun t => (t.readV 3, t.pc)) =
      some (0x00, 0x202) := congrArg (fun b : Byte => some (b, 0x202#16)) BitVec.and_zero

/-! ## Index register and memory transfers (V-IDX) -/

/-- V-IDX-1. -/
theorem test_ld_i : stepped (at200 0xA123) (fun t => (t.i, t.pc)) = some (0x123, 0x202) := by decide

/-- V-IDX-3, 4. -/
theorem test_add_i :
    stepped (((at200 0xF41E).setI 0xFFF).writeV 4 0x01) (fun t => t.i) = some 0x1000 ∧
    stepped ((((at200 0xF41E).setI 0xFFFF).writeV 4 0x01).writeV 0xF 0x55) (fun t => (t.i, t.readV 0xF)) =
      some (0x0000, 0x55) := by decide

/-- V-IDX-5, 6. -/
theorem test_ld_f :
    stepped ((at200 0xF229).writeV 2 0x0A) (fun t => t.i) = some 0x032 ∧
    stepped ((at200 0xF229).writeV 2 0xFF) (fun t => t.i) = some 0x4FB := by decide

/-- V-IDX-7. -/
theorem test_ld_b : stepped (((at200 0xF533).writeV 5 0xFE).setI 0x300)
    (fun t => ([t.mem.read 0x300, t.mem.read 0x301, t.mem.read 0x302], t.i)) =
      some ([0x02, 0x05, 0x04], 0x300) := by decide

/-- V-IDX-9, 10. -/
theorem test_ld_b_bound :
    stepped (((at200 0xF533).writeV 5 0x07).setI 0xFFC) (fun t => t.mem.read 0xFFE) = some 0x07 ∧
    stepped (((at200 0xF533).writeV 5 0x07).setI 0xFFD) (fun t => t.status) =
      some (.halted ⟨.outOfBounds 0xFFD, 0x200⟩) := by decide

/-- V-IDX-12. -/
theorem test_store_regs :
    stepped (((((at200 0xF255).writeV 0 0x01).writeV 1 0x02).writeV 2 0x03).setI 0x300)
      (fun t => ([t.mem.read 0x300, t.mem.read 0x301, t.mem.read 0x302, t.mem.read 0x303], t.i)) =
      some ([0x01, 0x02, 0x03, 0x00], 0x303) := by decide

/-- V-IDX-14, 16: the last byte that can be stored to, and no partial write past it. -/
theorem test_store_regs_bound :
    stepped (((at200 0xF055).writeV 0 0x01).setI 0xFFE) (fun t => (t.i, t.mem.read 0xFFE)) =
      some (0xFFF, 0x01) ∧
    stepped ((((at200 0xF155).writeV 0 0x01).writeV 1 0x02).setI 0xFFE)
      (fun t => (t.status, t.mem.read 0xFFE, t.i)) =
      some (.halted ⟨.outOfBounds 0xFFE, 0x200⟩, 0x00, 0xFFE) := by decide

/-- V-IDX-17, 18. -/
theorem test_load_regs :
    stepped ((poke (at200 0xF265) 0x300 [0x01, 0x02, 0x03, 0x04]).setI 0x300)
      (fun t => ([t.readV 0, t.readV 1, t.readV 2, t.readV 3], t.i)) =
      some ([0x01, 0x02, 0x03, 0x00], 0x303) ∧
    stepped (((at200 0xF065).setI 0xFFF).writeV 0 0x55) (fun t => (t.readV 0, t.i)) =
      some (0x00, 0x1000) := by decide

/-- V-IDX-19, 21. -/
theorem test_load_regs_bound :
    stepped ((at200 0xF165).setI 0xFFF) (fun t => (t.status, t.i)) =
      some (.halted ⟨.outOfBounds 0x1000, 0x200⟩, 0xFFF) ∧
    stepped ((at200 0xF065).setI 0x1000) (fun t => t.status) =
      some (.halted ⟨.outOfBounds 0x1000, 0x200⟩) := by decide

/-! ## Display (V-DRW); bit `c` of a row is column `c` -/

/-- V-DRW-12. -/
theorem test_cls : stepped (row (at200 0x000E) 4 0x1FFC00) (fun t => (t.disp[4], t.pc)) =
    some (0, 0x202) := by decide

/-- V-DRW-1, L1-6: 0xAA is columns 0, 2, 4, 6; 0x55 is columns 1, 3, 5, 7. -/
theorem test_drw :
    stepped (((poke (at200 0xD002) 0x300 [0xAA, 0x55]).setI 0x300).writeV 0xF 0x55)
      (fun t => (t.disp[0], t.disp[1], t.disp[2], t.readV 0xF)) = some (0x55, 0xAA, 0, 0x00) := by decide

/-- V-DRW-2, 4: erased pixels are no collision; a lit pixel under a 0 bit is one. -/
theorem test_drw_collision :
    stepped (row ((poke (at200 0xD001) 0x300 [0xFF]).setI 0x300) 0 0xFF) (fun t => (t.disp[0], t.readV 0xF)) =
      some (0x00, 0x00) ∧
    stepped (row ((poke (at200 0xD001) 0x300 [0x0F]).setI 0x300) 0 0xFF) (fun t => (t.disp[0], t.readV 0xF)) =
      some (0x0F, 0x01) := by decide

/-! ## Timers and keys (V-TK, V-HOST) -/

/-- V-TK-1, 4. -/
theorem test_skp :
    stepped (((at200 0xE19E).setLatch (some 5)).writeV 1 0x05) (fun t => t.pc) = some 0x204 ∧
    stepped (((at200 0xE19E).setLatch (some 5)).writeV 1 0x15) (fun t => t.pc) = some 0x202 := by decide

/-- V-TK-5, 6. -/
theorem test_sknp :
    stepped ((at200 0xE1A1).writeV 1 0x05) (fun t => t.pc) = some 0x204 ∧
    stepped (((at200 0xE1A1).setLatch (some 5)).writeV 1 0x05) (fun t => t.pc) = some 0x202 := by decide

/-- V-TK-9. -/
theorem test_ld_vx_dt : stepped ((at200 0xF307).setDt 0x3C) (fun t => (t.readV 3, t.dt)) =
    some (0x3C, 0x3C) := by decide

/-- V-TK-10, 11. -/
theorem test_ld_vx_k :
    stepped (at200 0xF10A) (fun t => t) = some (at200 0xF10A) ∧
    stepped ((at200 0xF10A).setLatch (some 7)) (fun t => (t.readV 1, t.pc, t.latch)) =
      some (0x07, 0x202, some 7) := by decide

/-- V-TK-13. -/
theorem test_ld_dt : stepped ((at200 0xF115).writeV 1 0x3C) (fun t => (t.dt, t.st)) = some (0x3C, 0x00) := by
  decide

/-- V-TK-14. -/
theorem test_ld_st : stepped ((at200 0xF118).writeV 1 0x05) (fun t => (t.dt, t.st)) = some (0x00, 0x05) := by
  decide

/-- V-HOST-1, 2, 3, 4. -/
theorem test_tick :
    (State.reset.setDt 2).tick.dt = 1 ∧ (State.reset.setSt 1).tick.st = 0 ∧ State.reset.tick = State.reset ∧
    ((State.reset.setDt 5).setStatus (.halted ⟨.outOfBounds 0x1000, 0x200⟩)).tick.dt = 4 := by decide

/-- V-HOST-5, 6: the last key set is the latch. -/
theorem test_set_key :
    (Session.start.run [.setKey (some 3), .setKey (some 5)]).core.latch = some 5 ∧
    (Session.start.run [.setKey (some 5), .setKey none]).core.latch = none := by decide

/-- R10, R112: a step closes LOAD, and RESET opens it again and restarts a halted core. -/
theorem test_session :
    ((Session.start.run [.step]).act (.load [0x12])).1 = .refused .loadClosed ∧
    (Session.start.act .step).1 = .stepFault ⟨.unknownInstruction 0x0000, 0x200⟩ ∧
    ((Session.start.run [.step]).act .step).1 = .refused .coreHalted ∧
    (Session.start.run [.step, .reset, .load [0x60, 0xAA], .step]).core.readV 0 = 0xAA := by decide

/-! ## Witnesses: a state and operands that meet every hypothesis of a statement, at the ends of its ranges.
Each theorem bears its statement's name and has its hypotheses at those values, clause by clause. -/

/-- A state with the invariant that steps: 15 entries on the stack, bytes at 0x300. -/
def busy : State := (poke (at200 0x2300) 0x300 [0x01, 0x02, 0x03]).setStack (deep 15)

/-- A halted state. -/
def halted : State := State.reset.setStatus (.halted ⟨.stackUnderflow, 0x200⟩)

theorem busy_inv : busy.Inv where
  memWf := by decide
  topByte := by decide
  depth := by decide
  entries := by
    intro a h
    rw [List.eq_of_mem_replicate h]
    decide
  pcBound := by decide
  haltedHere := by
    intro r h
    rw [show busy.status = .running by decide] at h
    cases h

/-- An answer with a next state in it is that next state. -/
theorem exists_next {r : Result} (h : (nextState? r).isSome = true) : ∃ t, r = .next t := by
  cases r with
  | next s => exact ⟨s, rfl⟩
  | fault _ => cases h
  | refused _ => cases h

theorem witness_StepKeepsTheMachineInvariant : busy.Inv ∧ ∃ t, step busy = .next t :=
  ⟨busy_inv, exists_next (by decide)⟩

theorem witness_HostActionsKeepTheMachineInvariant : (Session.mk busy true).core.Inv := busy_inv

theorem witness_ResetStateIsTheSpecs : 0x050 ≤ 0x050 ∧ 0x050 ≤ 0xFFF := by decide

theorem witness_TickCountsEachTimerDownToZero :
    0 < (State.reset.setDt 0x01).dt.toNat ∧ (State.reset.setDt 0x00).dt.toNat = 0 ∧
    0 < (State.reset.setSt 0xFF).st.toNat ∧ (State.reset.setSt 0x00).st.toNat = 0 := by decide

theorem witness_SetKeyReplacesTheLatch : 15 < 16 ∧ 16 ≤ 16 := by decide

theorem witness_LoadWritesTheImageAtTheEntry :
    (List.replicate 3583 (0x12 : Byte)).length ≤ 3583 ∧ 3582 < (List.replicate 3583 (0x12 : Byte)).length ∧
    3584 ≤ (List.replicate 3584 (0x12 : Byte)).length :=
  ⟨by rw [List.length_replicate], by rw [List.length_replicate]; decide, by rw [List.length_replicate]⟩

theorem witness_FrameIsTheDisplayRowByRow : (0 < 64 ∧ 0 < 32) ∧ 63 < 64 ∧ 31 < 32 := by decide

theorem witness_FetchIsBigEndian : (State.reset.setPc 0xFFE).pc.toNat ≤ 0xFFE := by decide

theorem witness_StepRunsTheDecodedInstruction :
    ((poke State.reset 0xFFE [0x12]).setPc 0xFFE).status = .running ∧
    ((poke State.reset 0xFFE [0x12]).setPc 0xFFE).pc.toNat ≤ 0xFFE ∧
    decodeWord (wordOfBytes (((poke State.reset 0xFFE [0x12]).setPc 0xFFE).mem.read 0xFFE)
      (((poke State.reset 0xFFE [0x12]).setPc 0xFFE).mem.read 0xFFF)) = .instr (.jp 0x200) := by decide

theorem witness_StepOnAnIllegalWordHaltsUnchanged :
    State.reset.status = .running ∧ State.reset.pc.toNat ≤ 0xFFE ∧
    decodeWord (wordOfBytes (State.reset.mem.read State.reset.pc.toNat)
      (State.reset.mem.read (State.reset.pc.toNat + 1))) = .illegal (.family0 0x0000) := by decide

theorem witness_StepPastMemoryHaltsUnchanged :
    ((State.reset.setPc 0xFFF).status = .running ∧ 0xFFF ≤ (State.reset.setPc 0xFFF).pc.toNat) ∧
    (State.reset.setPc 0x1000).status = .running ∧ 0xFFF ≤ (State.reset.setPc 0x1000).pc.toNat := by decide

theorem witness_StepOnAHaltedCoreIsRefused :
    halted.status = .halted ⟨.stackUnderflow, 0x200⟩ ∧ HostAction.tick ≠ .reset := by decide

/-- A session whose step runs on, and one whose step ends with a fault. -/
theorem witness_ARunningCoreAlwaysTakesItsStep :
    ((Session.mk (at200 0x1200) true).core.status = .running ∧
      stepped (at200 0x1200) (fun t => t.status) = some .running) ∧
    Session.start.core.status = .running ∧
    stepped Session.start.core (fun t => t.status) =
      some (.halted ⟨.unknownInstruction 0x0000, 0x200⟩) := by decide

theorem witness_APlacedWordIsTheNextInstruction :
    decodeWord 0x6001#16 = .instr (.ldImm 0x0 0x01) ∧ (State.reset.setPc 0xFFE).status = .running ∧
    (State.reset.setPc 0xFFE).pc.toNat ≤ 0xFFE := by decide

theorem witness_EncodeAfterDecodeReturnsTheWord : decodeWord 0x5AB7#16 = .instr (.seReg 0xA 0xB 0x7) := by
  decide

theorem witness_DecoderAgreesWithTheOpcodeMap :
    decodeWord 0x8ABE#16 = .instr (.shl 0xA 0xB) ∧ decodeWord 0x8ABF#16 = .illegal (.family8 0x8ABF) ∧
    ⟨"SHL_Vx", 0xF00F#16, 0x800E#16⟩ ∈ opcodeMap ∧
    OpcodeRow.covers ⟨"SHL_Vx", 0xF00F#16, 0x800E#16⟩ 0x8ABE#16 = true := by decide

theorem witness_MemoryControllerReadsBackWhatItWrote :
    0xFFF < 4096 ∧ 4096 ≤ 0x1000 ∧ 0xFFD + [0xCC#8, 0xDD#8].length < 4096 ∧ 1 < [0xCC#8, 0xDD#8].length ∧
    ¬ (0xFFD ≤ 0xFFF ∧ 0xFFF < 0xFFD + [0xCC#8, 0xDD#8].length) ∧
    4096 ≤ 0xFFE + [0xCC#8, 0xDD#8].length := by decide

theorem witness_CanonicalMemoriesThatReadAlikeAreEqual :
    Memory.wf [(0x300, 0x01)] = true ∧ Memory.wf (Memory.write [] 0x300 0x01) = true ∧
    ∀ a, Memory.read [(0x300, 0x01)] a = Memory.read (Memory.write [] 0x300 0x01) a :=
  ⟨by decide, by decide, fun _ => rfl⟩

theorem witness_NoInstructionWritesTheTopByte :
    ∃ t, exec (.storeRegs 0x0) (State.reset.setI 0xFFE) = .next t := exists_next (by decide)

theorem witness_StackIsLastInFirstOut :
    State.reset.stack.length + (deep 16).length ≤ 16 ∧ (State.reset.setStack (deep 16)).stack.length = 16 ∧
    State.reset.stack = [] := by decide

theorem witness_CallPushesTheReturnAddress : (State.reset.setStack (deep 15)).stack.length < 16 := by decide

theorem witness_ReturnPopsThePc : (State.reset.setStack [0x304]).stack = [] ++ [0x304] := by decide

theorem witness_StackFaultsHaltUnchanged :
    (State.reset.setStack (deep 16)).stack.length = 16 ∧ State.reset.stack = [] := by decide

theorem witness_ReturnAfterCallComesBack :
    (State.reset.setStack (deep 15)).stack.length < 16 ∧
    ∃ t, exec (.call 0x300) (State.reset.setStack (deep 15)) = .next t ∧
      (State.reset.setStack t.stack).stack = t.stack := by
  obtain ⟨t, h⟩ := exists_next (r := exec (.call 0x300) (State.reset.setStack (deep 15))) (by decide)
  exact ⟨by decide, t, h, rfl⟩

theorem witness_SkipsOnTheKeyLatch :
    (∃ k, ((State.reset.setLatch (some 0xF)).writeV 1 0x0F).latch = some k ∧
      k.toNat = (((State.reset.setLatch (some 0xF)).writeV 1 0x0F).readV 1).toNat) ∧
    ¬ ∃ k, State.reset.latch = some k ∧ k.toNat = (State.reset.readV 1).toNat :=
  ⟨⟨0xF, by decide, by decide⟩, fun ⟨_, h, _⟩ => by cases h⟩

/-- For AddSetsTheCarryFlag, SubtractionsSetTheNotBorrowFlag and ShiftsMoveTheLostBitToTheFlag. -/
theorem witness_FlagInstructionsWithAnotherDestination : (0xE#4 : Nibble) ≠ 0xF#4 := by decide

theorem witness_DecimalDigitsAreStored : (State.reset.setI 0xFFC).i.toNat + 3 < 4096 := by decide

theorem witness_RegistersAreStored :
    (State.reset.setI 0xFEF).i.toNat + (0xF#4).toNat + 1 < 4096 ∧ (0xF#4).toNat ≤ (0xF#4).toNat := by decide

theorem witness_StoresPastTheBoundHaltUnchanged :
    4096 ≤ (State.reset.setI 0xFFD).i.toNat + 3 ∧
    4096 ≤ (State.reset.setI 0xFF0).i.toNat + (0xF#4).toNat + 1 := by decide

theorem witness_RegistersAreLoaded :
    (State.reset.setI 0xFFF).i.toNat + (0x0#4).toNat < 4096 ∧ (0x0#4).toNat ≤ (0x0#4).toNat ∧
    (0x0#4).toNat < (0xF#4).toNat := by decide

theorem witness_LoadsPastMemoryHalt :
    4096 ≤ (State.reset.setI 0xFFF).i.toNat + (0x1#4).toNat ∧
    4096 ≤ (State.reset.setI 0x1000).i.toNat + (0x0#4).toNat := by decide

theorem witness_LoadAfterStoreRestoresTheRegisters :
    (State.reset.setI 0xFEF).i.toNat + (0xF#4).toNat + 1 < 4096 ∧
    ∃ t, exec (.storeRegs 0xF) (State.reset.setI 0xFEF) = .next t ∧
      (t.setI 0xFEF).mem = t.mem ∧ (t.setI 0xFEF).i = (State.reset.setI 0xFEF).i := by
  obtain ⟨t, h⟩ := exists_next (r := exec (.storeRegs 0xF) (State.reset.setI 0xFEF)) (by decide)
  exact ⟨by decide, t, h, rfl, rfl⟩

theorem witness_AStoreIsSeenByTheNextFetch :
    1 ≤ (0x1#4).toNat ∧ (State.reset.setI 0x202).i.toNat = State.reset.pc.toNat + 2 ∧
    (State.reset.setI 0x202).i.toNat + (0x1#4).toNat + 1 < 4096 := by decide

theorem witness_RowDrawXorsEightPixels :
    7 < 8 ∧ (8 < 64 ∧ 0 < 32 ∧ ¬ (0 = 33 % 32 ∧ ∃ j, j < 8 ∧ 8 = (62 + j) % 64)) :=
  ⟨by decide, by decide, by decide, fun h => absurd h.1 (by decide)⟩

theorem witness_DrawXorsTheSprite :
    ((0x0#4).toNat = 0 ∨ (State.reset.setI 0xFFFF).i.toNat + (0x0#4).toNat ≤ 4096) ∧
    ((0x1#4).toNat = 0 ∨ (State.reset.setI 0xFFF).i.toNat + (0x1#4).toNat ≤ 4096) := by decide

theorem witness_DrawPastMemoryHalts :
    (1 ≤ (0x2#4).toNat ∧ 4096 < (State.reset.setI 0xFFF).i.toNat + (0x2#4).toNat) ∧
    1 ≤ (0x1#4).toNat ∧ 4096 < (State.reset.setI 0x1000).i.toNat + (0x1#4).toNat := by decide

theorem witness_KeyWaitStoresTheKeyOrWaits :
    (State.reset.setLatch (some 0xF)).latch = some 0xF ∧ State.reset.latch = none := by decide

theorem witness_InstructionsChangeOnlyTheirOwnState : ∃ t, exec (.drw 0x0 0x0 0x5) State.reset = .next t :=
  exists_next (by decide)

theorem witness_InstructionsWriteOnlyTheirOwnRegisters :
    (∃ t, exec (.loadRegs 0x3) State.reset = .next t) ∧ (Instr.loadRegs 0x3).writesReg 0x4 = false :=
  ⟨exists_next (by decide), by decide⟩

theorem witness_SoundTimerIsNotObserved :
    (∃ t, step (at200 0xF118) = .next t) ∧ step halted = .refused .coreHalted :=
  ⟨exists_next (by decide), rfl⟩

end Sys2Proof.Tests
end

section
/-! Proofs of the memory and stack statements (spec/20_memory.md R52, R53, R58 to R60): what a successful
`MemWrite` reads as afterwards, and what a run of pushes and a run of pops leave. -/

namespace Sys2Proof.Machine

/-! ## The memory controller reads back what it wrote -/

theorem memRead_after_memWrite {m m' : Memory} {a : Nat} {d : List Byte} (hw : memWrite m a d = .ok m')
    (k : Nat) (hk : k < d.length) : memRead m' (a + k) = .ok d[k] := by
  obtain ⟨hfit, rfl⟩ := memWrite_eq_ok hw
  rw [memRead_ok _ _ (by omega), Memory.read_writeBytes_inside m a d k hk]

theorem read_after_memWrite_outside {m m' : Memory} {a : Nat} {d : List Byte}
    (hw : memWrite m a d = .ok m') (b : Nat) (hb : ¬ (a ≤ b ∧ b < a + d.length)) :
    m'.read b = m.read b := by
  obtain ⟨-, rfl⟩ := memWrite_eq_ok hw
  exact Memory.read_writeBytes_outside m a d b hb

/-- Settles O24: the two bounds are the two cases of each access, and the bytes of a write are those of
`Memory.writeBytes`, inside its range and outside it. -/
theorem memoryControllerReadsBackWhatItWrote : Obligations.MemoryControllerReadsBackWhatItWrote := by
  intro m a d
  refine ⟨memRead_ok m a, memRead_error m a, fun hfit => ?_, memWrite_error m a d⟩
  have hw := memWrite_ok m a d hfit
  exact ⟨_, hw, memRead_after_memWrite hw, read_after_memWrite_outside hw⟩

/-! ## The stack is last in, first out -/

@[simp] theorem State.setStack_setStack (s : State) (as bs : List Word) :
    (s.setStack as).setStack bs = s.setStack bs := rfl

@[simp] theorem State.setStack_self (s : State) : s.setStack s.stack = s := rfl

theorem push_ok (s : State) (a : Word) (h : s.stack.length < Config.stackDepth) :
    push s a = .ok (s.setStack (s.stack ++ [a])) := if_neg (by omega)

theorem push_error (s : State) (a : Word) (h : Config.stackDepth ≤ s.stack.length) :
    push s a = .error .stackOverflow := if_pos h

/-- Pushes that fit all succeed and append what they push, in order. -/
theorem pushAll_ok (s : State) (as : List Word) (h : s.stack.length + as.length ≤ Config.stackDepth) :
    pushAll s as = .ok (s.setStack (s.stack ++ as)) := by
  induction as generalizing s with
  | nil => simp [pushAll]
  | cons a as ih =>
    rw [List.length_cons] at h
    have hrest : (s.setStack (s.stack ++ [a])).stack.length + as.length ≤ Config.stackDepth := by
      rw [State.setStack_stack, List.length_append, List.length_singleton]
      omega
    rw [pushAll, push_ok s a (by omega)]
    simp [ih _ hrest]

/-- Pops take the last entries off, the newest first, whatever lies below them. -/
theorem popAll_append (s : State) (as bs : List Word) (h : s.stack = bs ++ as) :
    popAll s as.length = .ok (as.reverse, s.setStack bs) := by
  induction as using List.reverseRecOn generalizing s with
  | nil =>
    rw [List.append_nil] at h
    simp [popAll, ← h]
  | append_singleton as a ih =>
    have hpop : pop s = .ok (a, s.setStack (bs ++ as)) := pop_append s _ a (by rw [h, List.append_assoc])
    rw [List.length_append, List.length_singleton, popAll, hpop]
    simp [ih (s.setStack (bs ++ as)) rfl]

/-- Settles O27: the pushes append their list, and as many pops take exactly that suffix off again. -/
theorem stackIsLastInFirstOut : Obligations.StackIsLastInFirstOut := by
  refine ⟨fun s as hfit => ?_, fun s a hfull => push_error s a hfull.ge, pop_nil⟩
  exact ⟨s.setStack (s.stack ++ as), pushAll_ok s as hfit, rfl,
    popAll_append (s.setStack (s.stack ++ as)) as s.stack rfl⟩

end Sys2Proof.Machine
end

section
/-! Proofs of the fetch and dispatch statements (spec/30_encoding.md R81, R88 to R90): the byte order of a
fetched word, and each second level of the dispatch ROM as the chain of its selectors. -/

namespace Sys2Proof.Machine

/-- Settles O11: the fetch succeeds with the big-endian word of the two bytes. -/
theorem fetchIsBigEndian : Obligations.FetchIsBigEndian := by
  intro s hpc
  have hfit : s.pc.toNat + 1 < Config.memSize := by unfold Config.memSize; omega
  exact ⟨_, fetch_ok s hfit, wordOfBytes_toNat _ _⟩

end Sys2Proof.Machine

namespace Sys2Proof

/-! ## The first level: which second level a family selects -/

theorem decodeWord_of_op_8 {w : Word} (h : opOf w = 0x8#4) : decodeWord w = decodeFamily8 w := by
  simp [decodeWord, h]

theorem decodeWord_of_op_E {w : Word} (h : opOf w = 0xE#4) : decodeWord w = decodeFamilyE w := by
  simp [decodeWord, h]

theorem decodeWord_of_op_F {w : Word} (h : opOf w = 0xF#4) : decodeWord w = decodeFamilyF w := by
  simp [decodeWord, h]

/-! ## The second levels as chains of their selectors

The model matches on a selector's number; one case per entry, and the case of a selector that is no entry. -/

theorem decodeFamily8_eq (w : Word) : decodeFamily8 w =
    if nOf w = 0x0#4 then .instr (.ldReg (xOf w) (yOf w))
    else if nOf w = 0x1#4 then .instr (.orReg (xOf w) (yOf w))
    else if nOf w = 0x2#4 then .instr (.andReg (xOf w) (yOf w))
    else if nOf w = 0x3#4 then .instr (.xorReg (xOf w) (yOf w))
    else if nOf w = 0x4#4 then .instr (.addReg (xOf w) (yOf w))
    else if nOf w = 0x5#4 then .instr (.subReg (xOf w) (yOf w))
    else if nOf w = 0x6#4 then .instr (.shr (xOf w) (yOf w))
    else if nOf w = 0x7#4 then .instr (.subn (xOf w) (yOf w))
    else if nOf w = 0xE#4 then .instr (.shl (xOf w) (yOf w))
    else .illegal (.family8 w) := by
  simp only [← BitVec.toNat_inj]
  unfold decodeFamily8
  split <;> simp_all

theorem decodeFamilyE_eq (w : Word) : decodeFamilyE w =
    if kkOf w = 0x9E#8 then .instr (.skp (xOf w))
    else if kkOf w = 0xA1#8 then .instr (.sknp (xOf w))
    else .illegal (.familyE w) := by
  simp only [← BitVec.toNat_inj]
  unfold decodeFamilyE
  split <;> simp_all

theorem decodeFamilyF_eq (w : Word) : decodeFamilyF w =
    if kkOf w = 0x07#8 then .instr (.ldVxDt (xOf w))
    else if kkOf w = 0x0A#8 then .instr (.ldVxK (xOf w))
    else if kkOf w = 0x15#8 then .instr (.ldDtVx (xOf w))
    else if kkOf w = 0x18#8 then .instr (.ldStVx (xOf w))
    else if kkOf w = 0x1E#8 then .instr (.addI (xOf w))
    else if kkOf w = 0x29#8 then .instr (.ldF (xOf w))
    else if kkOf w = 0x33#8 then .instr (.ldB (xOf w))
    else if kkOf w = 0x55#8 then .instr (.storeRegs (xOf w))
    else if kkOf w = 0x65#8 then .instr (.loadRegs (xOf w))
    else .illegal (.familyF w) := by
  simp only [← BitVec.toNat_inj]
  unfold decodeFamilyF
  split <;> simp_all

/-- Settles O23: the word of a family goes to that family's second level, whose selector and operands are
the fields the word was built from. -/
theorem secondLevelsOfTheDispatchRom : Obligations.SecondLevelsOfTheDispatchRom := by
  refine ⟨fun x y n => ?family8, fun x kk => ?familyE, fun x kk => ?familyF⟩
  case family8 =>
    change decodeWord (formXYN 0x8#4 x y n) = _
    rw [decodeWord_of_op_8 (opOf_formXYN ..), decodeFamily8_eq, nOf_formXYN, xOf_formXYN, yOf_formXYN]
    rfl
  case familyE =>
    change decodeWord (formXKk 0xE#4 x kk) = _
    rw [decodeWord_of_op_E (opOf_formXKk ..), decodeFamilyE_eq, kkOf_formXKk, xOf_formXKk]
    rfl
  case familyF =>
    change decodeWord (formXKk 0xF#4 x kk) = _
    rw [decodeWord_of_op_F (opOf_formXKk ..), decodeFamilyF_eq, kkOf_formXKk, xOf_formXKk]
    rfl

end Sys2Proof
end

section
/-! Proofs of the control-flow statements (spec/41_control_flow.md R121, R123, R124; spec/43_index_memory.md
R170): an update of a listed field keeps a frame, the word of an immediate is its number, and a skip
instruction is `State.skipIf` of its condition. -/

namespace Sys2Proof.Machine

/-! ## Frames grow by one update of a listed field at a time -/

section
variable {fs : List Field} {s t : State}

theorem OnlyChanges.refl (fs : List Field) (s : State) : OnlyChanges fs s s := by
  apply onlyChanges_intro <;> intros <;> rfl

theorem OnlyChanges.setPc (h : OnlyChanges fs s t) (hpc : Field.pc ∈ fs) (a : Word) :
    OnlyChanges fs s (t.setPc a) := by
  intro f hf
  cases f
  case pc => exact absurd hpc hf
  all_goals exact h _ hf

theorem OnlyChanges.setI (h : OnlyChanges fs s t) (hi : Field.i ∈ fs) (a : Word) :
    OnlyChanges fs s (t.setI a) := by
  intro f hf
  cases f
  case i => exact absurd hi hf
  all_goals exact h _ hf

theorem OnlyChanges.advance (h : OnlyChanges fs s t) (hpc : Field.pc ∈ fs) :
    OnlyChanges fs s t.advance :=
  h.setPc hpc _

theorem OnlyChanges.skipIf (h : OnlyChanges fs s t) (hpc : Field.pc ∈ fs) (c : Bool) :
    OnlyChanges fs s (t.skipIf c) :=
  h.setPc hpc _

end

/-! ## JP nnn and LD I, nnn -/

/-- The 12-bit immediate widened to a word is the same number. -/
@[simp] theorem toNat_nnnWord (nnn : Imm12) : (nnnWord nnn).toNat = nnn.toNat :=
  BitVec.toNat_setWidth_of_le (by decide)

theorem exec_jp (nnn : Imm12) (s : State) : exec (.jp nnn) s = .next (s.setPc (nnnWord nnn)) := rfl

theorem exec_ldI (nnn : Imm12) (s : State) :
    exec (.ldI nnn) s = .next (s.setI (nnnWord nnn)).advance := rfl

/-- Settles O28: each instruction puts the word of its immediate in place, which is the immediate's number. -/
theorem jumpAndLoadIndexTakeTheImmediate : Obligations.JumpAndLoadIndexTakeTheImmediate := by
  intro nnn s
  constructor
  · exact ⟨_, exec_jp nnn s, toNat_nnnWord nnn, (OnlyChanges.refl _ s).setPc (by decide) _⟩
  · exact ⟨_, exec_ldI nnn s, toNat_nnnWord nnn, rfl,
      ((OnlyChanges.refl _ s).setI (by decide) _).advance (by decide)⟩

/-! ## The skip class (R104) -/

theorem exec_seImm (x : Nibble) (kk : Byte) (s : State) :
    exec (.seImm x kk) s = .next (s.skipIf (s.readV x == kk)) := rfl

theorem exec_sneImm (x : Nibble) (kk : Byte) (s : State) :
    exec (.sneImm x kk) s = .next (s.skipIf (s.readV x != kk)) := rfl

/-- Where a skip goes, by the proposition that its Boolean condition decides. -/
theorem State.skipIf_pc_of_iff (s : State) {c : Bool} {p : Prop} [Decidable p] (hc : c = true ↔ p) :
    (s.skipIf c).pc = if p then s.pc + 4#16 else s.pc + 2#16 := by
  simp only [State.skipIf_pc, hc]
  exact apply_ite (s.pc + ·) p _ _

/-- What an instruction of the skip class does: pc moves by its condition, and nothing else changes. -/
theorem exec_skip_class {instr : Instr} {s : State} {c : Bool} {p : Prop} [Decidable p]
    (hexec : exec instr s = .next (s.skipIf c)) (hc : c = true ↔ p) :
    ∃ t, exec instr s = .next t ∧ OnlyChanges [.pc] s t ∧
      t.pc = if p then s.pc + 4#16 else s.pc + 2#16 :=
  ⟨_, hexec, (OnlyChanges.refl _ s).skipIf (by decide) c, s.skipIf_pc_of_iff hc⟩

/-- Settles O34: both are of the skip class, with the Boolean tests of equality and of inequality. -/
theorem skipsOnAnImmediate : Obligations.SkipsOnAnImmediate := by
  intro x kk s
  exact ⟨exec_skip_class (exec_seImm x kk s) beq_iff_eq,
    exec_skip_class (exec_sneImm x kk s) bne_iff_ne⟩

end Sys2Proof.Machine
end

section
/-! Proofs of the load, move and immediate-add statements (spec/42_alu.md R142 to R144; spec/45_timers_keyboard.md
R217): a write of a listed register keeps a frame, and what an instruction does that stores one result. -/

namespace Sys2Proof.Machine

/-! ## A write of a listed register keeps both frames -/

section
variable {fs : List Field} {rs : List Nibble} {s t : State}

theorem OnlyChanges.writeV (h : OnlyChanges fs s t) (hv : Field.v ∈ fs) (x : Nibble) (b : Byte) :
    OnlyChanges fs s (t.writeV x b) := by
  intro f hf
  cases f
  case v => exact absurd hv hf
  all_goals exact h _ hf

theorem OnlyRegs.refl (rs : List Nibble) (s : State) : OnlyRegs rs s s := fun _ _ => rfl

theorem OnlyRegs.writeV (h : OnlyRegs rs s t) {x : Nibble} (hx : x ∈ rs) (b : Byte) :
    OnlyRegs rs s (t.writeV x b) := by
  intro r hr
  have hne : r ≠ x := fun heq => hr (heq ▸ hx)
  rw [State.readV_writeV_ne t x r b hne, h r hr]

theorem OnlyRegs.advance (h : OnlyRegs rs s t) : OnlyRegs rs s t.advance := h

end

/-! ## The instructions that store one result and write no flag -/

theorem exec_ldImm (x : Nibble) (kk : Byte) (s : State) : exec (.ldImm x kk) s = setResult x kk s := rfl

theorem exec_addImm (x : Nibble) (kk : Byte) (s : State) :
    exec (.addImm x kk) s = setResult x (s.readV x + kk) s := rfl

theorem exec_ldReg (x y : Nibble) (s : State) : exec (.ldReg x y) s = setResult x (s.readV y) s := rfl

theorem exec_ldVxDt (x : Nibble) (s : State) : exec (.ldVxDt x) s = setResult x s.dt s := rfl

/-- What an instruction does that stores one result: the result in its register, pc past the instruction,
and nothing else; VF too is kept unless it is that register. -/
theorem exec_setResult_class {instr : Instr} {s : State} {x : Nibble} {r : Byte}
    (hexec : exec instr s = setResult x r s) :
    ∃ t, exec instr s = .next t ∧ t.readV x = r ∧ t.pc = s.pc + 2#16 ∧
      OnlyRegs [x] s t ∧ OnlyChanges [.v, .pc] s t := by
  refine ⟨(s.writeV x r).advance, hexec, by simp, by simp, ?regs, ?frame⟩
  case regs => exact ((OnlyRegs.refl [x] s).writeV (List.mem_singleton_self x) r).advance
  case frame => exact ((OnlyChanges.refl _ s).writeV (by decide) x r).advance (by decide)

/-- Settles O37: both store one result, and the byte sum of ADD is the exact sum modulo 256. -/
theorem immediateLoadAndAdd : Obligations.ImmediateLoadAndAdd := by
  intro x kk s
  refine ⟨exec_setResult_class (exec_ldImm x kk s), ?add⟩
  case add =>
    obtain ⟨t, hexec, hresult, hrest⟩ := exec_setResult_class (exec_addImm x kk s)
    have hsum : (t.readV x).toNat = ((s.readV x).toNat + kk.toNat) % 256 := by
      rw [hresult, BitVec.toNat_add]
    exact ⟨t, hexec, hsum, hrest⟩

/-- Settles O38: both store one result, the register read or the delay timer. -/
theorem movesCopyTheirSource : Obligations.MovesCopyTheirSource :=
  ⟨fun x y s => exec_setResult_class (exec_ldReg x y s),
    fun x s => exec_setResult_class (exec_ldVxDt x s)⟩

end Sys2Proof.Machine
end

section
/-! Proofs of the display statements (spec/44_display.md R192, R194): where the row-major index of FRAME
finds a pixel, and what a row draw does to the pixels its eight columns reach and to those they miss. -/

namespace Sys2Proof.Machine

/-! ## FRAME -/

/-- `disp[row * 64 + col]` is the pixel `(col, row)` (R37). -/
theorem dispBit_row_major (d : Display) (col row : Nat) (hcol : col < 64) :
    dispBit d (row * 64 + col) = pixel d col row := by
  have hc : (row * 64 + col) % Config.displayW = col := by unfold Config.displayW; omega
  have hr : (row * 64 + col) / Config.displayW = row := by unfold Config.displayW; omega
  rw [dispBit, hc, hr]

theorem State.length_frame (s : State) : s.frame.length = 2048 := by
  rw [State.frame, List.length_map, List.length_range]

theorem State.getElem?_frame (s : State) (p : Nat) (hp : p < 2048) :
    s.frame[p]? = some (if dispBit s.disp p then 0x01#8 else 0x00#8) := by
  rw [State.frame, List.getElem?_map, List.getElem?_range hp, Option.map_some]

/-- Settles O10: the action only reads, and the byte at a row-major index is the pixel found there. -/
theorem frameIsTheDisplayRowByRow : Obligations.FrameIsTheDisplayRowByRow := by
  refine fun h => ⟨rfl, h.core.length_frame, fun col row hcol hrow => ?_⟩
  rw [State.getElem?_frame _ _ (by omega), dispBit_row_major _ _ _ hcol]

/-! ## A row draw -/

/-- Column `j` of a sprite row falls `j` columns right of its first. -/
theorem pixel_displayDraw_drawn (d : Display) (x y : Nat) (b : Byte) (j : Nat) (hj : j < 8) :
    pixel (displayDraw d x y b).1 (x + j) y = (pixel d (x + j) y ^^ spriteBit b j) := by
  have hcol : spriteCol x (x + j) = j := (spriteCol_eq x (x + j) j (by omega)).2 rfl
  simp [pixel_displayDraw, hcol, hj]

/-- A pixel of another row, or of a column that none of the eight falls on, is kept. -/
theorem pixel_displayDraw_kept (d : Display) (x y : Nat) (b : Byte) (c r : Nat)
    (h : ¬ (r % 32 = y % 32 ∧ spriteCol x c < 8)) :
    pixel (displayDraw d x y b).1 c r = pixel d c r := by
  rw [pixel_displayDraw, ← Bool.decide_and, decide_eq_false h, Bool.false_and, Bool.xor_false]

/-- Settles O53: a pixel that the eight columns reach is XORed with its bit, any other is kept, and the
collision report is that of the fold over the columns. -/
theorem rowDrawXorsEightPixels : Obligations.RowDrawXorsEightPixels := by
  refine fun d x y b => ⟨fun j hj => ?drawn, fun col row hcol hrow hout => ?kept, ?collided⟩
  case drawn =>
    rw [pixel_mod, pixel_mod]
    exact pixel_displayDraw_drawn d x y b j hj
  case kept =>
    refine pixel_displayDraw_kept d x y b col row fun ⟨hr, hlt⟩ => hout ⟨?row, _, hlt, ?col⟩
    case row => rwa [Nat.mod_eq_of_lt hrow] at hr
    case col =>
      have hc := (spriteCol_eq x col _ (by omega)).1 rfl
      rwa [Nat.mod_eq_of_lt hcol] at hc
  case collided =>
    simp only [pixel_mod]
    exact displayDraw_collided d x y b

end Sys2Proof.Machine
end

section
/-! Proofs of the timer and key-latch statements (spec/45_timers_keyboard.md R210, R215, R216, R219, R220): a
count-down as subtraction of naturals, an update of a listed timer keeps a frame, and SKP and SKNP as
instructions of the skip class on the latch. -/

namespace Sys2Proof.Machine

/-! ## An update of a listed timer keeps a frame -/

section
variable {fs : List Field} {s t : State}

theorem OnlyChanges.setDt (h : OnlyChanges fs s t) (hdt : Field.dt ∈ fs) (b : Byte) :
    OnlyChanges fs s (t.setDt b) := by
  intro f hf
  cases f
  case dt => exact absurd hdt hf
  all_goals exact h _ hf

theorem OnlyChanges.setSt (h : OnlyChanges fs s t) (hst : Field.st ∈ fs) (b : Byte) :
    OnlyChanges fs s (t.setSt b) := by
  intro f hf
  cases f
  case st => exact absurd hst hf
  all_goals exact h _ hf

end

/-! ## TICK -/

/-- Subtraction of naturals stops at 0, as the timer does. -/
@[simp] theorem toNat_countDown (b : Byte) : (countDown b).toNat = b.toNat - 1 := by
  unfold countDown
  split
  case isTrue hzero => rw [hzero]; rfl
  case isFalse hpos =>
    have hone : 1#8 ≤ b := by bv_omega
    exact BitVec.toNat_sub_of_le hone

theorem State.tick_onlyChanges (s : State) : OnlyChanges [.dt, .st] s s.tick :=
  ((OnlyChanges.refl _ s).setDt (by decide) _).setSt (by decide) _

theorem Session.act_tick (h : Session) : h.act .tick = (.ok, ⟨h.core.tick, h.loadOpen⟩) := rfl

/-- Settles O6: both timers are counted down, and 0 less 1 is 0. -/
theorem tickCountsEachTimerDownToZero : Obligations.TickCountsEachTimerDownToZero := by
  refine ⟨fun s => ?state, fun h => by rw [Session.act_tick]⟩
  case state =>
    have hdt : s.tick.dt.toNat = s.dt.toNat - 1 := toNat_countDown s.dt
    have hst : s.tick.st.toNat = s.st.toNat - 1 := toNat_countDown s.st
    exact ⟨fun _ => hdt, fun hzero => by rw [hdt, hzero],
      fun _ => hst, fun hzero => by rw [hst, hzero], s.tick_onlyChanges⟩

/-! ## SKP and SKNP -/

theorem exec_skp (x : Nibble) (s : State) :
    exec (.skp x) s = .next (s.skipIf (s.isKeyPressed (s.readV x))) := rfl

theorem exec_sknp (x : Nibble) (s : State) :
    exec (.sknp x) s = .next (s.skipIf (!s.isKeyPressed (s.readV x))) := rfl

theorem State.not_isKeyPressed_iff (s : State) (b : Byte) :
    (!s.isKeyPressed b) = true ↔ ¬ ∃ k, s.latch = some k ∧ k.toNat = b.toNat := by
  rw [Bool.not_eq_true', ← Bool.not_eq_true, s.isKeyPressed_iff]

/-- Settles O36: both are of the skip class, with the latch test and with its negation. -/
theorem skipsOnTheKeyLatch : Obligations.SkipsOnTheKeyLatch := by
  classical
  refine fun x s => ⟨?skp, ?sknp⟩
  case skp =>
    obtain ⟨t, hexec, hframe, hpc⟩ := exec_skip_class (exec_skp x s) (s.isKeyPressed_iff _)
    exact ⟨t, hexec, hframe, fun hkey => hpc.trans (if_pos hkey), fun hno => hpc.trans (if_neg hno)⟩
  case sknp =>
    obtain ⟨t, hexec, hframe, hpc⟩ := exec_skip_class (exec_sknp x s) (s.not_isKeyPressed_iff _)
    exact ⟨t, hexec, hframe, fun hkey => hpc.trans (if_neg (not_not_intro hkey)),
      fun hno => hpc.trans (if_pos hno)⟩

/-! ## LD DT, Vx and LD ST, Vx -/

theorem exec_ldDtVx (x : Nibble) (s : State) :
    exec (.ldDtVx x) s = .next (s.setDt (s.readV x)).advance := rfl

theorem exec_ldStVx (x : Nibble) (s : State) :
    exec (.ldStVx x) s = .next (s.setSt (s.readV x)).advance := rfl

/-- Settles O56: each sets its timer to the register and advances pc. -/
theorem timersAreSet : Obligations.TimersAreSet := by
  refine fun x s => ⟨⟨_, exec_ldDtVx x s, ?dt, ?dtPc, ?dtFrame⟩, ⟨_, exec_ldStVx x s, ?st, ?stPc, ?stFrame⟩⟩
  case dt => rw [State.advance_dt, State.setDt_dt]
  case dtPc => rw [State.advance_pc, State.setDt_pc]
  case dtFrame => exact ((OnlyChanges.refl _ s).setDt (by decide) _).advance (by decide)
  case st => rw [State.advance_st, State.setSt_st]
  case stPc => rw [State.advance_pc, State.setSt_pc]
  case stFrame => exact ((OnlyChanges.refl _ s).setSt (by decide) _).advance (by decide)

end Sys2Proof.Machine
end

section
/-! Proofs of the invariant statements (spec/10_state.md sections 2 and 5; spec/20_memory.md R54;
spec/60_exceptions.md R236): what each piece of a state asks of the invariant, then one case per class of
instruction and one per host action. -/

namespace Sys2Proof.Machine

/-! ## The pieces of the invariant -/

section
variable {s t : State}

/-- The invariant speaks of memory, the stack, pc and the status; a running core may be anything else. -/
theorem State.Inv.of_running (h : s.Inv) (hmem : t.mem = s.mem) (hstack : t.stack = s.stack)
    (hpc : t.pc.toNat ≤ 0x10FE) (hrun : t.status = .running) : t.Inv where
  memWf := hmem ▸ h.memWf
  topByte := hmem ▸ h.topByte
  depth := hstack ▸ h.depth
  entries := hstack ▸ h.entries
  pcBound := hpc
  haltedHere := fun r hr => by rw [hrun] at hr; cases hr

/-- The invariant does not speak of registers, timers, the display, the latch or the draw counter. -/
theorem State.Inv.of_same (h : s.Inv) (hmem : t.mem = s.mem) (hstack : t.stack = s.stack)
    (hpc : t.pc = s.pc) (hstatus : t.status = s.status) : t.Inv where
  memWf := hmem ▸ h.memWf
  topByte := hmem ▸ h.topByte
  depth := hstack ▸ h.depth
  entries := hstack ▸ h.entries
  pcBound := hpc ▸ h.pcBound
  haltedHere := fun r hr => by rw [hpc]; exact h.haltedHere r (hstatus ▸ hr)

theorem State.Inv.of_advanced (h : s.Inv) (hmem : t.mem = s.mem) (hstack : t.stack = s.stack)
    (ht : t.pc = s.pc + 2#16) (hpc : (s.pc + 2#16).toNat ≤ 0x10FE) (hrun : t.status = .running) : t.Inv :=
  h.of_running hmem hstack (ht ▸ hpc) hrun

/-- Taking a fault keeps the invariant: pc stays at the instruction that is recorded. -/
theorem State.Inv.halt (h : s.Inv) (e : FaultInfo) : (s.setStatus (.halted ⟨e, s.pc⟩)).Inv where
  memWf := h.memWf
  topByte := h.topByte
  depth := h.depth
  entries := h.entries
  pcBound := h.pcBound
  haltedHere := fun r hr => by rw [← Status.halted.inj hr]; rfl

/-- A write inside the bound of `MemWrite` keeps the invariant: it never reaches 0xFFF (R54). -/
theorem State.Inv.setMem_writeBytes (h : s.Inv) {a : Nat} {d : List Byte}
    (hfit : a + d.length < Config.memSize) : (s.setMem (s.mem.writeBytes a d)).Inv where
  memWf := Memory.wf_writeBytes _ _ _ h.memWf hfit.le
  topByte := by
    unfold Config.memSize at hfit
    rw [State.setMem_mem, Memory.read_writeBytes_outside _ _ _ _ (by omega), h.topByte]
  depth := h.depth
  entries := h.entries
  pcBound := h.pcBound
  haltedHere := h.haltedHere

theorem State.Inv.setStack (h : s.Inv) {as : List Word} (hdepth : as.length ≤ 16)
    (hentries : ∀ a ∈ as, 2 ≤ a.toNat ∧ a.toNat ≤ 0x1000) : (s.setStack as).Inv where
  memWf := h.memWf
  topByte := h.topByte
  depth := hdepth
  entries := hentries
  pcBound := h.pcBound
  haltedHere := h.haltedHere

end

/-! ## The bounds of pc -/

section
variable {p : Word}

/-- Past an instruction that could be fetched, pc does not wrap. -/
theorem toNat_pc_add_two (h : p.toNat + 1 < Config.memSize) : (p + 2#16).toNat = p.toNat + 2 := by
  unfold Config.memSize at h
  bv_omega

theorem toNat_pc_skip_le (h : p.toNat + 1 < Config.memSize) (c : Bool) :
    (p + if c then 4#16 else 2#16).toNat ≤ 0x10FE := by
  unfold Config.memSize at h
  cases c
  · rw [if_neg Bool.false_ne_true]; bv_omega
  · rw [if_pos rfl]; bv_omega

theorem toNat_pc_add_two_le (h : p.toNat + 1 < Config.memSize) : (p + 2#16).toNat ≤ 0x10FE :=
  toNat_pc_skip_le h false

end

@[simp] theorem toNat_zext16 (b : Byte) : (zext16 b).toNat = b.toNat :=
  BitVec.toNat_setWidth_of_le (by decide)

theorem toNat_nnnWord_le (nnn : Imm12) : (nnnWord nnn).toNat ≤ 0x10FE := by
  rw [toNat_nnnWord]; omega

/-- The sum of JP V0 never wraps (R127). -/
theorem toNat_nnnWord_add_zext16 (nnn : Imm12) (b : Byte) :
    (nnnWord nnn + zext16 b).toNat = nnn.toNat + b.toNat := by
  rw [BitVec.toNat_add, toNat_nnnWord, toNat_zext16]
  omega

/-! ## The instructions -/

/-- An instruction that was fetched keeps the invariant. -/
theorem State.Inv.exec_next {s t : State} (h : s.Inv) (hrun : s.status = .running)
    (hpc : s.pc.toNat + 1 < Config.memSize) {i : Instr} (hexec : exec i s = .next t) : t.Inv := by
  have hnext : (s.pc + 2#16).toNat ≤ 0x10FE := toNat_pc_add_two_le hpc
  cases i
  case jp nnn =>
    obtain rfl := Host.Outcome.next.inj hexec
    exact h.of_running rfl rfl (toNat_nnnWord_le nnn) hrun
  case jpV0 nnn =>
    obtain rfl := Host.Outcome.next.inj hexec
    refine h.of_running rfl rfl ?_ hrun
    rw [State.setPc_pc, toNat_nnnWord_add_zext16]
    omega
  case seImm | sneImm | seReg | sneReg | skp | sknp =>
    obtain rfl := Host.Outcome.next.inj hexec
    exact h.of_running rfl rfl (toNat_pc_skip_le hpc _) hrun
  case cls | ldImm | addImm | ldReg | orReg | andReg | xorReg | addReg | subReg | shr | subn | shl | ldI
      | rnd | ldVxDt | ldDtVx | ldStVx | addI | ldF =>
    obtain rfl := Host.Outcome.next.inj hexec
    exact h.of_advanced rfl rfl rfl hnext hrun
  case ret u =>
    obtain ⟨-, rfl⟩ | ⟨as, a, hstack, rfl⟩ := exec_ret_cases hexec
    · exact h.halt _
    · have hentries : ∀ b ∈ as ++ [a], 2 ≤ b.toNat ∧ b.toNat ≤ 0x1000 := hstack ▸ h.entries
      have hdepth : (as ++ [a]).length ≤ 16 := hstack ▸ h.depth
      rw [List.length_append] at hdepth
      have hpop : (s.setStack as).Inv :=
        h.setStack (by omega) fun b hb => hentries b (List.mem_append_left _ hb)
      have ha := (hentries a (List.mem_append_right _ (List.mem_singleton_self a))).2
      exact hpop.of_running rfl rfl (show a.toNat ≤ 0x10FE by omega) hrun
  case call nnn =>
    obtain ⟨-, rfl⟩ | ⟨hroom, rfl⟩ := exec_call_cases hexec
    · exact h.halt _
    · have hpush : (s.setStack (s.stack ++ [s.pc + 2#16])).Inv := by
        refine h.setStack (by rw [List.length_append]; exact hroom) fun b hb => ?_
        obtain hb | hb := List.mem_append.1 hb
        · exact h.entries b hb
        · rw [List.mem_singleton.1 hb, toNat_pc_add_two hpc]
          unfold Config.memSize at hpc
          omega
      exact hpush.of_running rfl rfl (toNat_nnnWord_le nnn) hrun
  case ldB x =>
    obtain ⟨e, rfl⟩ | ⟨hfit, rfl⟩ := exec_ldB_cases hexec
    · exact h.halt e
    · have hwrite : (s.setMem (s.mem.writeBytes s.dataAddr (decimalDigits (s.readV x)))).Inv :=
        h.setMem_writeBytes hfit
      exact hwrite.of_advanced rfl rfl rfl hnext hrun
  case storeRegs x =>
    obtain ⟨e, rfl⟩ | ⟨hfit, rfl⟩ := exec_storeRegs_cases hexec
    · exact h.halt e
    · have hwrite : (s.setMem (s.mem.writeBytes s.dataAddr (s.regsUpTo x))).Inv :=
        h.setMem_writeBytes (by rwa [State.length_regsUpTo])
      exact hwrite.of_advanced rfl rfl rfl hnext hrun
  case loadRegs x =>
    obtain ⟨e, rfl⟩ | ⟨bs, -, rfl⟩ := exec_loadRegs_cases hexec
    · exact (h.halt e).of_same (by simp) (by simp) (by simp) (by simp)
    · exact h.of_advanced (by simp) (by simp) (by simp) hnext (by simp [hrun])
  case drw x y n =>
    obtain ⟨d, c, rfl⟩ | ⟨e, d, rfl⟩ := exec_drw_cases hexec
    · exact h.of_advanced rfl rfl rfl hnext hrun
    · exact (h.halt e).of_same (by simp) (by simp) (by simp) (by simp)
  case ldVxK x =>
    obtain ⟨-, rfl⟩ | ⟨k, -, rfl⟩ := exec_ldVxK_cases hexec
    · exact h
    · exact h.of_advanced rfl rfl rfl hnext hrun

/-- Settles O3: a step takes a fault where it stands, or runs an instruction that it could fetch. -/
theorem stepKeepsTheMachineInvariant : Obligations.StepKeepsTheMachineInvariant := by
  intro s t h hstep
  obtain ⟨hrun, ⟨e, rfl⟩ | ⟨w, i, hpc, -, -, hexec⟩⟩ := step_cases hstep
  · exact h.halt e
  · exact h.exec_next hrun hpc hexec

/-! ## The host actions -/

/-- Settles O2: each clause of the reset state is evaluated. -/
theorem resetMeetsTheMachineInvariant : Obligations.ResetMeetsTheMachineInvariant where
  memWf := rfl
  topByte := by decide
  depth := by decide
  entries := fun _ h => absurd h List.not_mem_nil
  pcBound := by decide
  haltedHere := fun _ h => by cases h

/-- Settles O4: STEP is the step, LOAD one write inside the bound, RESET the reset state; the others leave
memory, stack, pc and status alone. -/
theorem hostActionsKeepTheMachineInvariant : Obligations.HostActionsKeepTheMachineInvariant := by
  rintro ⟨s, o⟩ a (h : s.Inv)
  cases a
  case reset => exact resetMeetsTheMachineInvariant.of_same rfl rfl rfl rfl
  case tick => exact h.of_same rfl rfl rfl rfl
  case frame | status => exact h
  case load image =>
    obtain ⟨m, -, hwrite, hact⟩ | ⟨e, -, -, hact⟩ | ⟨-, hact⟩ := Session.act_load_cases s o image <;> rw [hact]
    · obtain ⟨hfit, rfl⟩ := memWrite_eq_ok hwrite
      exact h.setMem_writeBytes hfit
    · exact h
    · exact h
  case step =>
    simp only [Session.act, Session.actStep]
    split
    · exact stepKeepsTheMachineInvariant _ _ h ‹_›
    · exact h
    · exact h
  case setKey k =>
    obtain ⟨l, -, hact⟩ | ⟨n, -, -, hact⟩ := Session.act_setKey_cases s o k <;> rw [hact]
    · exact h.of_same rfl rfl rfl rfl
    · exact h

end Sys2Proof.Machine
end

section
/-! Proofs of the encoding statements (spec/30_encoding.md R80 to R94): the first level of the dispatch ROM as
the chain of its families, the encoder against it in both directions, and the opcode map against both. -/

namespace Sys2Proof

/-! ## The two levels of the dispatch ROM as chains of their selectors -/

theorem decodeWord_eq (w : Word) : decodeWord w =
    if opOf w = 0x0#4 then decodeFamily0 w
    else if opOf w = 0x1#4 then .instr (.jp (nnnOf w))
    else if opOf w = 0x2#4 then .instr (.call (nnnOf w))
    else if opOf w = 0x3#4 then .instr (.seImm (xOf w) (kkOf w))
    else if opOf w = 0x4#4 then .instr (.sneImm (xOf w) (kkOf w))
    else if opOf w = 0x5#4 then .instr (.seReg (xOf w) (yOf w) (nOf w))
    else if opOf w = 0x6#4 then .instr (.ldImm (xOf w) (kkOf w))
    else if opOf w = 0x7#4 then .instr (.addImm (xOf w) (kkOf w))
    else if opOf w = 0x8#4 then decodeFamily8 w
    else if opOf w = 0x9#4 then .instr (.sneReg (xOf w) (yOf w) (nOf w))
    else if opOf w = 0xA#4 then .instr (.ldI (nnnOf w))
    else if opOf w = 0xB#4 then .instr (.jpV0 (nnnOf w))
    else if opOf w = 0xC#4 then .instr (.rnd (xOf w) (kkOf w))
    else if opOf w = 0xD#4 then .instr (.drw (xOf w) (yOf w) (nOf w))
    else if opOf w = 0xE#4 then decodeFamilyE w
    else decodeFamilyF w := by
  simp only [← BitVec.toNat_inj]
  unfold decodeWord
  split <;> simp_all

theorem decodeFamily0_eq (w : Word) : decodeFamily0 w =
    if kkOf w = 0x0E#8 then .instr (.cls (xOf w))
    else if kkOf w = 0xEE#8 then .instr (.ret (xOf w))
    else .illegal (.family0 w) := rfl

theorem nibble_cases (n : Nibble) :
    n = 0x0#4 ∨ n = 0x1#4 ∨ n = 0x2#4 ∨ n = 0x3#4 ∨ n = 0x4#4 ∨ n = 0x5#4 ∨ n = 0x6#4 ∨ n = 0x7#4 ∨
      n = 0x8#4 ∨ n = 0x9#4 ∨ n = 0xA#4 ∨ n = 0xB#4 ∨ n = 0xC#4 ∨ n = 0xD#4 ∨ n = 0xE#4 ∨ n = 0xF#4 := by
  revert n
  decide

/-- Settles O18: the ten words are evaluated. -/
theorem wordsOfTheOpcodeMapDecode : Obligations.WordsOfTheOpcodeMapDecode := by
  unfold Obligations.WordsOfTheOpcodeMapDecode
  decide

/-- Settles O22: the word goes to the second level of family 0, whose selector is `kk`. -/
theorem familyZeroDecodesClsAndRetOnly : Obligations.FamilyZeroDecodesClsAndRetOnly := by
  intro x kk
  change decodeWord (formXKk 0x0#4 x kk) = _
  rw [decodeWord_eq, opOf_formXKk, if_pos rfl, decodeFamily0_eq, kkOf_formXKk, xOf_formXKk]
  rfl

/-! ## Decoding what was encoded -/

/-- Each form has its selectors where the ROM looks for them and its operands where the row takes them. -/
theorem decodeWord_encode (i : Instr) : decodeWord (encode i) = .instr i := by
  cases i
  case jp | call | ldI | jpV0 => simp [encode, decodeWord_eq]
  case seImm | sneImm | ldImm | addImm | rnd => simp [encode, decodeWord_eq]
  case seReg | sneReg | drw => simp [encode, decodeWord_eq]
  case cls | ret => simp [encode, decodeWord_eq, decodeFamily0_eq, Config.clsKK]
  case ldReg | orReg | andReg | xorReg | addReg | subReg | shr | subn | shl =>
    simp [encode, decodeWord_eq, decodeFamily8_eq]
  case skp | sknp => simp [encode, decodeWord_eq, decodeFamilyE_eq]
  case ldVxDt | ldVxK | ldDtVx | ldStVx | addI | ldF | ldB | storeRegs | loadRegs =>
    simp [encode, decodeWord_eq, decodeFamilyF_eq]

/-- Two bytes of a word, whatever follows them, are decoded as that word. -/
theorem decode_bytesOfWord_append (w : Word) (rest : List Byte) :
    decode (bytesOfWord w ++ rest) = (decodeWord w, rest) := by
  change (decodeWord (wordOfBytes (w.extractLsb' 8 8) (w.extractLsb' 0 8)), rest) = _
  rw [wordOfBytes_of_bytes]

/-- Settles O19: the two bytes are those of the encoded word, which decodes to the instruction. -/
theorem decodeAfterEncodeReturnsTheInstruction : Obligations.DecodeAfterEncodeReturnsTheInstruction := by
  intro i rest
  rw [encodeBytes, decode_bytesOfWord_append, decodeWord_encode]

/-! ## Encoding what was decoded -/

theorem encode_of_decodeFamily0 {w : Word} {i : Instr} (h : decodeFamily0 w = .instr i) :
    encode i = formXKk 0x0#4 (xOf w) (kkOf w) := by
  rw [decodeFamily0_eq] at h
  split_ifs at h with hkk hkk <;> rw [hkk, ← Verdict.instr.inj h] <;> rfl

theorem encode_of_decodeFamily8 {w : Word} {i : Instr} (h : decodeFamily8 w = .instr i) :
    encode i = formXYN 0x8#4 (xOf w) (yOf w) (nOf w) := by
  rw [decodeFamily8_eq] at h
  split_ifs at h with hn hn hn hn hn hn hn hn hn <;> rw [hn, ← Verdict.instr.inj h] <;> rfl

theorem encode_of_decodeFamilyE {w : Word} {i : Instr} (h : decodeFamilyE w = .instr i) :
    encode i = formXKk 0xE#4 (xOf w) (kkOf w) := by
  rw [decodeFamilyE_eq] at h
  split_ifs at h with hkk hkk <;> rw [hkk, ← Verdict.instr.inj h] <;> rfl

theorem encode_of_decodeFamilyF {w : Word} {i : Instr} (h : decodeFamilyF w = .instr i) :
    encode i = formXKk 0xF#4 (xOf w) (kkOf w) := by
  rw [decodeFamilyF_eq] at h
  split_ifs at h with hkk hkk hkk hkk hkk hkk hkk hkk hkk <;> rw [hkk, ← Verdict.instr.inj h] <;> rfl

/-- Settles O20: family by family, the encoding is the form of the word's own fields. -/
theorem encodeAfterDecodeReturnsTheWord : Obligations.EncodeAfterDecodeReturnsTheWord := by
  intro w i h
  have hnnn := formNnn_fields w
  have hxkk := formXKk_fields w
  have hxyn := formXYN_fields w
  rw [decodeWord_eq] at h
  obtain hop | hop | hop | hop | hop | hop | hop | hop | hop | hop | hop | hop | hop | hop | hop | hop :=
      nibble_cases (opOf w) <;>
    rw [hop] at h hnnn hxkk hxyn
  · exact (encode_of_decodeFamily0 h).trans hxkk
  · rw [← Verdict.instr.inj h]; exact hnnn
  · rw [← Verdict.instr.inj h]; exact hnnn
  · rw [← Verdict.instr.inj h]; exact hxkk
  · rw [← Verdict.instr.inj h]; exact hxkk
  · rw [← Verdict.instr.inj h]; exact hxyn
  · rw [← Verdict.instr.inj h]; exact hxkk
  · rw [← Verdict.instr.inj h]; exact hxkk
  · exact (encode_of_decodeFamily8 h).trans hxyn
  · rw [← Verdict.instr.inj h]; exact hxyn
  · rw [← Verdict.instr.inj h]; exact hnnn
  · rw [← Verdict.instr.inj h]; exact hnnn
  · rw [← Verdict.instr.inj h]; exact hxkk
  · rw [← Verdict.instr.inj h]; exact hxyn
  · exact (encode_of_decodeFamilyE h).trans hxkk
  · exact (encode_of_decodeFamilyF h).trans hxkk

/-! ## The opcode map -/

/-- Every instruction encodes to a word of the row that bears its mnemonic. -/
theorem encodesItsRow (i : Instr) : Laws.EncodesItsRow.Statement i :=
  match i with
  | .cls u => Laws.EncodesItsRow.cls u
  | .ret u => Laws.EncodesItsRow.ret u
  | .jp nnn => Laws.EncodesItsRow.jp nnn
  | .call nnn => Laws.EncodesItsRow.call nnn
  | .seImm x kk => Laws.EncodesItsRow.seImm x kk
  | .sneImm x kk => Laws.EncodesItsRow.sneImm x kk
  | .seReg x y u => Laws.EncodesItsRow.seReg x y u
  | .ldImm x kk => Laws.EncodesItsRow.ldImm x kk
  | .addImm x kk => Laws.EncodesItsRow.addImm x kk
  | .ldReg x y => Laws.EncodesItsRow.ldReg x y
  | .orReg x y => Laws.EncodesItsRow.orReg x y
  | .andReg x y => Laws.EncodesItsRow.andReg x y
  | .xorReg x y => Laws.EncodesItsRow.xorReg x y
  | .addReg x y => Laws.EncodesItsRow.addReg x y
  | .subReg x y => Laws.EncodesItsRow.subReg x y
  | .shr x y => Laws.EncodesItsRow.shr x y
  | .subn x y => Laws.EncodesItsRow.subn x y
  | .shl x y => Laws.EncodesItsRow.shl x y
  | .sneReg x y u => Laws.EncodesItsRow.sneReg x y u
  | .ldI nnn => Laws.EncodesItsRow.ldI nnn
  | .jpV0 nnn => Laws.EncodesItsRow.jpV0 nnn
  | .rnd x kk => Laws.EncodesItsRow.rnd x kk
  | .drw x y n => Laws.EncodesItsRow.drw x y n
  | .skp x => Laws.EncodesItsRow.skp x
  | .sknp x => Laws.EncodesItsRow.sknp x
  | .ldVxDt x => Laws.EncodesItsRow.ldVxDt x
  | .ldVxK x => Laws.EncodesItsRow.ldVxK x
  | .ldDtVx x => Laws.EncodesItsRow.ldDtVx x
  | .ldStVx x => Laws.EncodesItsRow.ldStVx x
  | .addI x => Laws.EncodesItsRow.addI x
  | .ldF x => Laws.EncodesItsRow.ldF x
  | .ldB x => Laws.EncodesItsRow.ldB x
  | .storeRegs x => Laws.EncodesItsRow.storeRegs x
  | .loadRegs x => Laws.EncodesItsRow.loadRegs x

theorem covers_iff (row : OpcodeRow) (w : Word) : row.covers w = true ↔ w &&& row.mask = row.pattern :=
  beq_iff_eq

/-- Two rows that agree on the bits both fix are one row. -/
theorem opcodeMap_eq_of_agree : ∀ row ∈ opcodeMap, ∀ row' ∈ opcodeMap,
    row.pattern &&& row'.mask = row'.pattern &&& row.mask → row = row' := by
  decide

/-- No word is covered by two rows. -/
theorem eq_of_covers {w : Word} {row row' : OpcodeRow} (hrow : row ∈ opcodeMap) (hrow' : row' ∈ opcodeMap)
    (h : row.covers w = true) (h' : row'.covers w = true) : row = row' := by
  rw [covers_iff] at h h'
  apply opcodeMap_eq_of_agree row hrow row' hrow'
  rw [← h, ← h', BitVec.and_assoc, BitVec.and_assoc, BitVec.and_comm row.mask]

theorem opOf_and (w m : Word) : opOf (w &&& m) = opOf w &&& opOf m := BitVec.extractLsb'_and ..
theorem nOf_and (w m : Word) : nOf (w &&& m) = nOf w &&& nOf m := BitVec.extractLsb'_and ..
theorem kkOf_and (w m : Word) : kkOf (w &&& m) = kkOf w &&& kkOf m := BitVec.extractLsb'_and ..

/-! ### Every word of a row is decoded -/

/-- The selectors of the second levels. -/
def legal0 : List Byte := [0x0E#8, 0xEE#8]
def legal8 : List Nibble := [0x0#4, 0x1#4, 0x2#4, 0x3#4, 0x4#4, 0x5#4, 0x6#4, 0x7#4, 0xE#4]
def legalE : List Byte := [0x9E#8, 0xA1#8]
def legalF : List Byte := [0x07#8, 0x0A#8, 0x15#8, 0x18#8, 0x1E#8, 0x29#8, 0x33#8, 0x55#8, 0x65#8]

theorem decodeFamily0_legal {w : Word} (h : kkOf w ∈ legal0) : ∃ i, decodeFamily0 w = .instr i := by
  simp only [legal0, List.mem_cons, List.not_mem_nil, or_false] at h
  obtain h | h := h <;> simp [decodeFamily0_eq, h]

theorem decodeFamily8_legal {w : Word} (h : nOf w ∈ legal8) : ∃ i, decodeFamily8 w = .instr i := by
  simp only [legal8, List.mem_cons, List.not_mem_nil, or_false] at h
  obtain h | h | h | h | h | h | h | h | h := h <;> simp [decodeFamily8_eq, h]

theorem decodeFamilyE_legal {w : Word} (h : kkOf w ∈ legalE) : ∃ i, decodeFamilyE w = .instr i := by
  simp only [legalE, List.mem_cons, List.not_mem_nil, or_false] at h
  obtain h | h := h <;> simp [decodeFamilyE_eq, h]

theorem decodeFamilyF_legal {w : Word} (h : kkOf w ∈ legalF) : ∃ i, decodeFamilyF w = .instr i := by
  simp only [legalF, List.mem_cons, List.not_mem_nil, or_false] at h
  obtain h | h | h | h | h | h | h | h | h := h <;> simp [decodeFamilyF_eq, h]

/-- A family without a second level has no illegal word. -/
theorem decodeWord_one_level {w : Word} (h : opOf w ∉ [0x0#4, 0x8#4, 0xE#4, 0xF#4]) :
    ∃ i, decodeWord w = .instr i := by
  obtain hop | hop | hop | hop | hop | hop | hop | hop | hop | hop | hop | hop | hop | hop | hop | hop :=
      nibble_cases (opOf w) <;>
    simp [decodeWord_eq, hop] at h ⊢

/-- The shapes of a row: one family; family 8 with `n`; family 0, E or F with `kk`. The selector it fixes is a
legal one. -/
theorem opcodeMap_shapes : ∀ row ∈ opcodeMap,
    (row.mask = 0xF000#16 ∧ opOf row.pattern ∉ [0x0#4, 0x8#4, 0xE#4, 0xF#4]) ∨
    (row.mask = 0xF00F#16 ∧ opOf row.pattern = 0x8#4 ∧ nOf row.pattern ∈ legal8) ∨
    (row.mask = 0xF0FF#16 ∧
      ((opOf row.pattern = 0x0#4 ∧ kkOf row.pattern ∈ legal0) ∨
        (opOf row.pattern = 0xE#4 ∧ kkOf row.pattern ∈ legalE) ∨
        (opOf row.pattern = 0xF#4 ∧ kkOf row.pattern ∈ legalF))) := by
  decide

/-- The fields of a word under a mask are the pattern's, where the mask keeps them whole. -/
theorem opOf_of_covers {w : Word} {row : OpcodeRow} (h : row.covers w = true)
    (hm : opOf row.mask = BitVec.allOnes 4) : opOf w = opOf row.pattern := by
  rw [← (covers_iff row w).1 h, opOf_and, hm, BitVec.and_allOnes]

theorem nOf_of_covers {w : Word} {row : OpcodeRow} (h : row.covers w = true)
    (hm : nOf row.mask = BitVec.allOnes 4) : nOf w = nOf row.pattern := by
  rw [← (covers_iff row w).1 h, nOf_and, hm, BitVec.and_allOnes]

theorem kkOf_of_covers {w : Word} {row : OpcodeRow} (h : row.covers w = true)
    (hm : kkOf row.mask = BitVec.allOnes 8) : kkOf w = kkOf row.pattern := by
  rw [← (covers_iff row w).1 h, kkOf_and, hm, BitVec.and_allOnes]

/-- A word that a row covers decodes. -/
theorem decodes_of_covers {w : Word} {row : OpcodeRow} (hrow : row ∈ opcodeMap) (h : row.covers w = true) :
    ∃ i, decodeWord w = .instr i := by
  obtain ⟨hm, hop⟩ | ⟨hm, hop, hn⟩ | ⟨hm, ⟨hop, hkk⟩ | ⟨hop, hkk⟩ | ⟨hop, hkk⟩⟩ := opcodeMap_shapes row hrow
  all_goals rw [← opOf_of_covers h (by rw [hm]; rfl)] at hop
  · exact decodeWord_one_level hop
  · rw [← nOf_of_covers h (by rw [hm]; rfl)] at hn
    rw [decodeWord_of_op_8 hop]
    exact decodeFamily8_legal hn
  all_goals rw [← kkOf_of_covers h (by rw [hm]; rfl)] at hkk
  · rw [decodeWord_eq, if_pos hop]
    exact decodeFamily0_legal hkk
  · rw [decodeWord_of_op_E hop]
    exact decodeFamilyE_legal hkk
  · rw [decodeWord_of_op_F hop]
    exact decodeFamilyF_legal hkk

/-- Settles O21: the word of an instruction is its encoding, so it is of the row with its mnemonic; that row
is the only one that covers it; and a word that a row covers decodes. -/
theorem decoderAgreesWithTheOpcodeMap : Obligations.DecoderAgreesWithTheOpcodeMap := by
  refine fun w => ⟨fun i hi => ?decoded, fun r hr row hrow => ?rejected, fun row hrow row' hrow' => ?one⟩
  case decoded =>
    obtain ⟨row, hrow, hname, hcovers⟩ := encodesItsRow i
    rw [encodeAfterDecodeReturnsTheWord w i hi] at hcovers
    refine ⟨⟨row, hrow, hname, hcovers⟩, fun row' hrow' => ⟨fun h => ?_, fun h => ?_⟩⟩
    · rw [eq_of_covers hrow' hrow h hcovers, hname]
    · rw [opcodeMap_mnemonic_inj row' hrow' row hrow (h.trans hname.symm), hcovers]
  case rejected =>
    refine Bool.eq_false_iff.2 fun h => ?_
    obtain ⟨i, hi⟩ := decodes_of_covers hrow h
    rw [hr] at hi
    cases hi
  case one => exact eq_of_covers hrow hrow'

end Sys2Proof
end

section
/-! Proofs of the step statements (spec/40_pipeline.md R101 to R112; spec/60_exceptions.md R236): the fault
answer, the ways a step begins, one equation for each way an instruction ends, and the STEP action. -/

namespace Sys2Proof.Machine

/-! ## The fault answer -/

theorem OnlyChanges.setStatus {fs : List Field} {s t : State} (h : OnlyChanges fs s t)
    (hstatus : Field.status ∈ fs) (a : Status) : OnlyChanges fs s (t.setStatus a) := by
  intro f hf
  cases f
  case status => exact absurd hstatus hf
  all_goals exact h _ hf

/-- Taking a fault records it with pc and changes nothing else (R235, R236). -/
theorem next_of_raise {answer : Result} {e : FaultInfo} {s : State} (h : answer = raise e s) :
    ∃ t, answer = .next t ∧ t.status = .halted ⟨e, s.pc⟩ ∧ OnlyChanges [.status] s t :=
  ⟨_, h, rfl, (OnlyChanges.refl _ s).setStatus (by decide) _⟩

/-! ## How a step begins -/

section
variable {s : State}

theorem step_of_decoded {w : Word} {i : Instr} (hrun : s.status = .running) (hfetch : fetch s = .ok w)
    (hdecode : decodeWord w = .instr i) : step s = exec i s := by
  simp only [step, hrun, hfetch, hdecode]

theorem step_of_illegal {w : Word} {r : Reject} (hrun : s.status = .running) (hfetch : fetch s = .ok w)
    (hdecode : decodeWord w = .illegal r) : step s = raise (.unknownInstruction w) s := by
  simp only [step, hrun, hfetch, hdecode, unknownWord]

theorem step_of_fetch_error {e : FaultInfo} (hrun : s.status = .running) (hfetch : fetch s = .error e) :
    step s = raise e s := by
  simp only [step, hrun, hfetch]

/-- The last address a whole word can be fetched from is 0xFFE. -/
theorem fetch_fits (h : s.pc.toNat ≤ 0xFFE) : s.pc.toNat + 1 < Config.memSize := by
  unfold Config.memSize
  omega

/-- A fetch that fails does so at the first address that does not exist. -/
theorem fetch_past_memory (h : Config.memSize ≤ s.pc.toNat + 1) :
    fetch s = .error (.outOfBounds (max s.pc.toNat Config.memSize)) := by
  unfold fetch
  by_cases h0 : Config.memSize ≤ s.pc.toNat
  · rw [memRead_error _ _ h0, Nat.max_eq_left h0]
  · rw [memRead_ok _ _ (by omega), memRead_error _ _ h, Nat.max_eq_right (by omega),
      show s.pc.toNat + 1 = Config.memSize by omega]

end

/-- Settles O12: the fetch reads the two bytes. -/
theorem stepRunsTheDecodedInstruction : Obligations.StepRunsTheDecodedInstruction :=
  fun s _ hrun hpc hdecode => step_of_decoded hrun (fetch_ok s (fetch_fits hpc)) hdecode

/-- Settles O13: the fetch reads the two bytes, and the answer is the fault of their word. -/
theorem stepOnAnIllegalWordHaltsUnchanged : Obligations.StepOnAnIllegalWordHaltsUnchanged :=
  fun s _ hrun hpc hdecode =>
    next_of_raise (step_of_illegal hrun (fetch_ok s (fetch_fits hpc)) hdecode)

/-- Settles O14: the first address that does not exist is 0x1000, or pc from there on. -/
theorem stepPastMemoryHaltsUnchanged : Obligations.StepPastMemoryHaltsUnchanged := by
  intro s hrun hpc
  have haddr : (if s.pc.toNat = 0xFFF then 0x1000 else s.pc.toNat) = max s.pc.toNat Config.memSize := by
    unfold Config.memSize
    split <;> omega
  rw [haddr]
  exact next_of_raise (step_of_fetch_error hrun (fetch_past_memory (Nat.succ_le_succ hpc)))

/-- Settles O5: the reset state runs, and the word at its pc is 0x0000, which is illegal. -/
theorem stepOfTheResetStateHaltsOnTheZeroWord : Obligations.StepOfTheResetStateHaltsOnTheZeroWord := by
  have hfetch : fetch State.reset = .ok 0x0000#16 := by decide
  have hdecode : decodeWord 0x0000#16 = .illegal (.family0 0x0000#16) := by decide
  exact next_of_raise (step_of_illegal rfl hfetch hdecode)

/-! ## One equation for each way an instruction ends -/

section
variable {s : State}

theorem exec_ret_empty (u : Nibble) (h : s.stack = []) : exec (.ret u) s = raise .stackUnderflow s := by
  simp only [exec, execRet, pop_nil s h]

theorem exec_ret_pops (u : Nibble) {as : List Word} {a : Word} (h : s.stack = as ++ [a]) :
    exec (.ret u) s = .next ((s.setStack as).setPc a) := by
  simp only [exec, execRet, pop_append s as a h]

theorem exec_call_full (nnn : Imm12) (h : Config.stackDepth ≤ s.stack.length) :
    exec (.call nnn) s = raise .stackOverflow s := by
  simp only [exec, execCall, push_error s _ h]

theorem exec_call_pushes (nnn : Imm12) (h : s.stack.length < Config.stackDepth) :
    exec (.call nnn) s = .next ((s.setStack (s.stack ++ [s.pc + 2#16])).setPc (nnnWord nnn)) := by
  simp only [exec, execCall, push_ok s _ h]

theorem exec_ldB_stores {x : Nibble} (h : s.dataAddr + 3 < Config.memSize) :
    exec (.ldB x) s =
      .next (s.setMem (s.mem.writeBytes s.dataAddr (decimalDigits (s.readV x)))).advance := by
  have hwrite := memWrite_ok s.mem s.dataAddr (decimalDigits (s.readV x)) h
  simp only [exec, execLdB, hwrite]

theorem exec_ldB_faults {x : Nibble} (h : Config.memSize ≤ s.dataAddr + 3) :
    exec (.ldB x) s = raise (.outOfBounds s.dataAddr) s := by
  have hwrite := memWrite_error s.mem s.dataAddr (decimalDigits (s.readV x)) h
  simp only [exec, execLdB, hwrite]

theorem exec_storeRegs_stores {x : Nibble} (h : s.dataAddr + (x.toNat + 1) < Config.memSize) :
    exec (.storeRegs x) s =
      .next ((s.setMem (s.mem.writeBytes s.dataAddr (s.regsUpTo x))).setI (s.indexAfter x)).advance := by
  have hwrite := memWrite_ok s.mem s.dataAddr (s.regsUpTo x) (by rwa [State.length_regsUpTo])
  simp only [exec, execStoreRegs, hwrite]

theorem exec_storeRegs_faults {x : Nibble} (h : Config.memSize ≤ s.dataAddr + (x.toNat + 1)) :
    exec (.storeRegs x) s = raise (.outOfBounds s.dataAddr) s := by
  have hwrite := memWrite_error s.mem s.dataAddr (s.regsUpTo x) (by rwa [State.length_regsUpTo])
  simp only [exec, execStoreRegs, hwrite]

/-- The bytes of memory from an address on. -/
def bytesFrom (m : Memory) (a n : Nat) : List Byte := (List.range n).map fun k => m.read (a + k)

theorem exec_loadRegs_loads {x : Nibble} (h : s.dataAddr + (x.toNat + 1) ≤ Config.memSize) :
    exec (.loadRegs x) s =
      .next ((s.writeRegs (bytesFrom s.mem s.dataAddr (x.toNat + 1))).setI (s.indexAfter x)).advance := by
  have hread : memReadRange s.mem s.dataAddr (countOf x + 1) = .ok (bytesFrom s.mem s.dataAddr (x.toNat + 1)) :=
    memReadRange_ok s.mem s.dataAddr (x.toNat + 1) h
  simp only [exec, execLoadRegs, hread]

theorem exec_loadRegs_faults {x : Nibble} (h : Config.memSize < s.dataAddr + (x.toNat + 1)) :
    exec (.loadRegs x) s = .next ((s.setV (residueRegs s.draws s.mem s.dataAddr x s.v)).drawn.setStatus
      (.halted ⟨.outOfBounds (max s.dataAddr Config.memSize), s.pc⟩)) := by
  have hread : memReadRange s.mem s.dataAddr (countOf x + 1) =
      .error (.outOfBounds (max s.dataAddr Config.memSize)) :=
    memReadRange_error s.mem s.dataAddr (x.toNat + 1) h (Nat.succ_pos _)
  simp only [exec, execLoadRegs, hread, raise_eq, State.drawn_pc, State.setV_pc]

theorem exec_drw_done {x y n : Nibble} {d : Display} {c : Bool}
    (h : drawRows s.mem s.dataAddr (s.readV x).toNat (s.readV y).toNat (countOf n) 0 s.disp false = .done d c) :
    exec (.drw x y n) s = .next ((s.setDisp d).writeV vf (collisionFlag c)).advance := by
  simp only [exec, execDrw, h]

theorem exec_drw_stopped {x y n : Nibble} {e : FaultInfo} {d : Display}
    (h : drawRows s.mem s.dataAddr (s.readV x).toNat (s.readV y).toNat (countOf n) 0 s.disp false =
      .stopped e d) :
    exec (.drw x y n) s = .next ((s.setDisp (residueDisplay s.draws s.disp d)).drawn.setStatus
      (.halted ⟨e, s.pc⟩)) := by
  simp only [exec, execDrw, h, raise_eq, State.drawn_pc, State.setDisp_pc]

theorem exec_ldVxK_key {x k : Nibble} (h : s.latch = some k) :
    exec (.ldVxK x) s = setResult x (k.setWidth 8) s := by
  simp only [exec, execLdVxK, State.getKey, h, setResult]

theorem exec_ldVxK_waits {x : Nibble} (h : s.latch = none) : exec (.ldVxK x) s = .next s := by
  simp only [exec, execLdVxK, State.getKey, h]

end

/-! ## Every instruction answers a next state -/

/-- The seven instructions with two ends answer one at each. -/
theorem exec_total (i : Instr) (s : State) : ∃ t, exec i s = .next t := by
  cases i
  case ret u =>
    obtain ⟨h, -⟩ | ⟨as, a, h, -⟩ := pop_cases s
    · exact ⟨_, exec_ret_empty u h⟩
    · exact ⟨_, exec_ret_pops u h⟩
  case call nnn =>
    obtain ⟨h, -⟩ | ⟨h, -⟩ := push_cases s (s.pc + 2#16)
    · exact ⟨_, exec_call_pushes nnn h⟩
    · exact ⟨_, exec_call_full nnn h⟩
  case ldB x =>
    obtain h | h := Nat.lt_or_ge (s.dataAddr + 3) Config.memSize
    · exact ⟨_, exec_ldB_stores h⟩
    · exact ⟨_, exec_ldB_faults h⟩
  case storeRegs x =>
    obtain h | h := Nat.lt_or_ge (s.dataAddr + (x.toNat + 1)) Config.memSize
    · exact ⟨_, exec_storeRegs_stores h⟩
    · exact ⟨_, exec_storeRegs_faults h⟩
  case loadRegs x =>
    obtain h | h := Nat.lt_or_ge Config.memSize (s.dataAddr + (x.toNat + 1))
    · exact ⟨_, exec_loadRegs_faults h⟩
    · exact ⟨_, exec_loadRegs_loads h⟩
  case drw x y n =>
    cases h : drawRows s.mem s.dataAddr (s.readV x).toNat (s.readV y).toNat (countOf n) 0 s.disp false with
    | done d c => exact ⟨_, exec_drw_done h⟩
    | stopped e d => exact ⟨_, exec_drw_stopped h⟩
  case ldVxK x =>
    cases h : s.latch with
    | none => exact ⟨_, exec_ldVxK_waits h⟩
    | some k => exact ⟨_, exec_ldVxK_key h⟩
  all_goals exact ⟨_, rfl⟩

theorem step_total {s : State} (hrun : s.status = .running) : ∃ t, step s = .next t := by
  cases hfetch : fetch s with
  | error e => exact ⟨_, step_of_fetch_error hrun hfetch⟩
  | ok w =>
    cases hdecode : decodeWord w with
    | illegal r => exact ⟨_, step_of_illegal hrun hfetch hdecode⟩
    | instr i =>
      rw [step_of_decoded hrun hfetch hdecode]
      exact exec_total i s

/-- Settles O16: every instruction and every way a step begins answer a next state, which STEP passes on. -/
theorem aRunningCoreAlwaysTakesItsStep : Obligations.ARunningCoreAlwaysTakesItsStep := by
  refine ⟨exec_total, fun s hrun => step_total hrun, ?act, fun h => rfl⟩
  case act =>
    rintro ⟨s, o⟩ hrun
    obtain ⟨t, ht⟩ := step_total hrun
    rw [Session.act_step_next o ht]
    exact ⟨t, ht, rfl, stepResponse_running, fun r => stepResponse_halted⟩

/-! ## A halted core -/

/-- No action but RESET touches the status of a halted core (R112, R237). -/
theorem Session.act_keeps_halted {s : State} {r : FaultRecord} (h : s.status = .halted r) (o : Bool)
    {a : HostAction} (ha : a ≠ .reset) : (Session.act ⟨s, o⟩ a).2.core.status = .halted r := by
  cases a
  case reset => exact absurd rfl ha
  case tick | frame | status => exact h
  case step => rw [Session.act_step_refused o (step_of_halted h)]; exact h
  case load image =>
    obtain ⟨m, -, -, hact⟩ | ⟨e, -, -, hact⟩ | ⟨-, hact⟩ := Session.act_load_cases s o image <;>
      rw [hact] <;> exact h
  case setKey k =>
    obtain ⟨l, -, hact⟩ | ⟨n, -, -, hact⟩ := Session.act_setKey_cases s o k <;> rw [hact] <;> exact h

/-- Settles O15: the refusal of the step is the answer of STEP, and each other action keeps the status. -/
theorem stepOnAHaltedCoreIsRefused : Obligations.StepOnAHaltedCoreIsRefused := by
  refine ⟨fun s r h => ⟨step_of_halted h, fun o => ⟨?step, ?status, ?kept⟩⟩,
    fun _ => rfl, rfl, rfl, fun _ => rfl⟩
  case step => exact Session.act_step_refused o (step_of_halted h)
  case status => rw [← h]; rfl
  case kept => exact fun a ha => Session.act_keeps_halted h o ha

/-! ## A word placed for the next fetch -/

theorem fetchAddr_fits (s : State) : (fetchAddr s).toNat + 1 < Config.memSize := by
  unfold fetchAddr
  split
  · assumption
  · decide

theorem fetchAddr_eq_pc {s : State} (h : s.pc.toNat ≤ 0xFFE) : fetchAddr s = s.pc :=
  if_pos (fetch_fits h)

/-- The fetch reads the placed word back. -/
theorem fetch_placeWord (s : State) (w : Word) : fetch (placeWord s w) = .ok w := by
  have hhi : (s.mem.writeBytes (fetchAddr s).toNat (bytesOfWord w)).read (fetchAddr s).toNat =
      w.extractLsb' 8 8 := Memory.read_writeBytes_inside _ _ _ 0 (by simp [bytesOfWord])
  have hlo : (s.mem.writeBytes (fetchAddr s).toNat (bytesOfWord w)).read ((fetchAddr s).toNat + 1) =
      w.extractLsb' 0 8 := Memory.read_writeBytes_inside _ _ _ 1 (by simp [bytesOfWord])
  rw [fetch_ok (placeWord s w) (fetchAddr_fits s)]
  simp only [placeWord, hhi, hlo, wordOfBytes_of_bytes]

theorem withFetchWord_toNat (s : State) (w : Word) : s.withFetchWord 16 w.toNat = placeWord s w := by
  rw [State.withFetchWord, tableWord_toNat]

theorem placeWord_onlyBytes {s : State} (hpc : s.pc.toNat ≤ 0xFFE) (w : Word) :
    OnlyBytes s.pc.toNat 2 s (placeWord s w) := by
  intro b hb
  simp only [placeWord, fetchAddr_eq_pc hpc]
  exact Memory.read_writeBytes_outside _ _ _ _ hb

theorem placeWord_onlyChanges {s : State} (hrun : s.status = .running) (hpc : s.pc.toNat ≤ 0xFFE) (w : Word) :
    OnlyChanges [.mem] s (placeWord s w) := by
  intro f hf
  cases f
  case mem => exact absurd (List.mem_singleton_self _) hf
  case pc => exact fetchAddr_eq_pc hpc
  case status => exact hrun.symm
  all_goals exact OnlyChanges.refl _ s _ hf

/-- Settles O17: the placed word is fetched back and decoded, by the step and by the table's reading of it. -/
theorem aPlacedWordIsTheNextInstruction : Obligations.APlacedWordIsTheNextInstruction := by
  intro s w i hdecode
  rw [withFetchWord_toNat]
  refine ⟨?table, ?step, fun hrun hpc => ⟨placeWord_onlyChanges hrun hpc w, placeWord_onlyBytes hpc w⟩⟩
  case table =>
    have h := decode_bytesOfWord_append w []
    rw [List.append_nil] at h
    rw [decodeTableWord, tableWord_toNat, h, hdecode]
    rfl
  case step => exact step_of_decoded rfl (fetch_placeWord s w) hdecode

end Sys2Proof.Machine
end

section
/-! Proofs of the remaining control-flow statements (spec/41_control_flow.md R120 to R127): the jump with
offset, CALL and RET at both their ends and one after the other, and the skips on two registers. -/

namespace Sys2Proof.Machine

theorem OnlyChanges.setStack {fs : List Field} {s t : State} (h : OnlyChanges fs s t)
    (hstack : Field.stack ∈ fs) (as : List Word) : OnlyChanges fs s (t.setStack as) := by
  intro f hf
  cases f
  case stack => exact absurd hstack hf
  all_goals exact h _ hf

/-- A new stack and a new pc: all that CALL and RET change. -/
theorem onlyChanges_setStack_setPc (s : State) (as : List Word) (a : Word) :
    OnlyChanges [.pc, .stack] s ((s.setStack as).setPc a) :=
  ((OnlyChanges.refl _ s).setStack (by decide) as).setPc (by decide) a

theorem exec_jpV0 (nnn : Imm12) (s : State) :
    exec (.jpV0 nnn) s = .next (s.setPc (nnnWord nnn + zext16 (s.readV 0x0#4))) := rfl

/-- Settles O29: the sum of a 12-bit and an 8-bit number fits a word. -/
theorem jumpWithOffsetSetsThePcToTheSum : Obligations.JumpWithOffsetSetsThePcToTheSum :=
  fun nnn s => ⟨_, exec_jpV0 nnn s, toNat_nnnWord_add_zext16 nnn _,
    (OnlyChanges.refl _ s).setPc (by decide) _⟩

/-- Settles O30: there is room, so the push succeeds. -/
theorem callPushesTheReturnAddress : Obligations.CallPushesTheReturnAddress :=
  fun nnn s hroom => ⟨_, exec_call_pushes nnn hroom, rfl, toNat_nnnWord nnn,
    onlyChanges_setStack_setPc s _ _⟩

/-- Settles O31: the pop takes the last entry, which becomes pc. -/
theorem returnPopsThePc : Obligations.ReturnPopsThePc :=
  fun u s _ _ hstack => ⟨_, exec_ret_pops u hstack, rfl, rfl, onlyChanges_setStack_setPc s _ _⟩

/-- Settles O32: the push on a full stack and the pop of an empty one fail. -/
theorem stackFaultsHaltUnchanged : Obligations.StackFaultsHaltUnchanged :=
  ⟨fun nnn _ hfull => next_of_raise (exec_call_full nnn hfull.ge),
    fun u _ hempty => next_of_raise (exec_ret_empty u hempty)⟩

/-- Settles O33: the CALL's stack ends with the return address, which the RET pops. -/
theorem returnAfterCallComesBack : Obligations.ReturnAfterCallComesBack := by
  intro nnn u s hroom
  refine ⟨_, exec_call_pushes nnn hroom, fun t' hstack => ?_⟩
  rw [State.setPc_stack, State.setStack_stack] at hstack
  exact ⟨_, exec_ret_pops u hstack, rfl, rfl⟩

theorem exec_seReg (x y u : Nibble) (s : State) :
    exec (.seReg x y u) s = .next (s.skipIf (s.readV x == s.readV y)) := rfl

theorem exec_sneReg (x y u : Nibble) (s : State) :
    exec (.sneReg x y u) s = .next (s.skipIf (s.readV x != s.readV y)) := rfl

/-- Settles O35: both are of the skip class, with the Boolean tests of equality and of inequality. -/
theorem skipsOnRegisters : Obligations.SkipsOnRegisters :=
  fun x y u s => ⟨exec_skip_class (exec_seReg x y u s) beq_iff_eq,
    exec_skip_class (exec_sneReg x y u s) bne_iff_ne⟩

end Sys2Proof.Machine
end

section
/-! Proofs of the remaining ALU statements (spec/42_alu.md R141, R145 to R153): what an instruction does that
stores one result and then the flag, and each result and flag as a number. -/

namespace Sys2Proof.Machine

/-! ## One result, no flag -/

theorem exec_orReg (x y : Nibble) (s : State) :
    exec (.orReg x y) s = setResult x (s.readV x ||| s.readV y) s := rfl

theorem exec_andReg (x y : Nibble) (s : State) :
    exec (.andReg x y) s = setResult x (s.readV x &&& s.readV y) s := rfl

theorem exec_xorReg (x y : Nibble) (s : State) :
    exec (.xorReg x y) s = setResult x (s.readV x ^^^ s.readV y) s := rfl

/-- Settles O39: each stores one result, whose bits are those of the library's operation. -/
theorem bitwiseOperationsActBitByBit : Obligations.BitwiseOperationsActBitByBit := by
  refine fun x y s => ⟨?or, ?and, ?xor⟩
  case or =>
    obtain ⟨t, hexec, hresult, hrest⟩ := exec_setResult_class (exec_orReg x y s)
    exact ⟨t, hexec, fun b => by rw [hresult, BitVec.getLsbD_or], hrest⟩
  case and =>
    obtain ⟨t, hexec, hresult, hrest⟩ := exec_setResult_class (exec_andReg x y s)
    exact ⟨t, hexec, fun b => by rw [hresult, BitVec.getLsbD_and], hrest⟩
  case xor =>
    obtain ⟨t, hexec, hresult, hrest⟩ := exec_setResult_class (exec_xorReg x y s)
    exact ⟨t, hexec, fun b => by rw [hresult, BitVec.getLsbD_xor], hrest⟩

/-- Settles O57: a latched key is stored as one result; with none the state is answered as it stands. -/
theorem keyWaitStoresTheKeyOrWaits : Obligations.KeyWaitStoresTheKeyOrWaits := by
  refine fun x s => ⟨fun k hkey => ?_, exec_ldVxK_waits⟩
  obtain ⟨t, hexec, hresult, hrest⟩ := exec_setResult_class (exec_ldVxK_key (x := x) hkey)
  refine ⟨t, hexec, ?_, hrest⟩
  rw [hresult, BitVec.toNat_setWidth_of_le (by decide)]

theorem OnlyChanges.setDraws {fs : List Field} {s t : State} (h : OnlyChanges fs s t)
    (hdraws : Field.draws ∈ fs) (n : Nat) : OnlyChanges fs s (t.setDraws n) := by
  intro f hf
  cases f
  case draws => exact absurd hdraws hf
  all_goals exact h _ hf

theorem OnlyChanges.drawn {fs : List Field} {s t : State} (h : OnlyChanges fs s t)
    (hdraws : Field.draws ∈ fs) : OnlyChanges fs s t.drawn :=
  h.setDraws hdraws _

theorem exec_rnd (x : Nibble) (kk : Byte) (s : State) :
    exec (.rnd x kk) s = .next (s.drawn.writeV x (Config.rand s.draws &&& kk)).advance := rfl

/-- Settles O43: the draw is counted first, then the masked byte stored. -/
theorem randomByteIsMasked : Obligations.RandomByteIsMasked := by
  refine fun x kk s => ⟨_, exec_rnd x kk s, by simp, rfl, rfl, ?regs, ?frame⟩
  case regs =>
    have hdrawn : OnlyRegs [x] s s.drawn := fun _ _ => rfl
    exact (hdrawn.writeV (List.mem_singleton_self x) _).advance
  case frame =>
    exact (((OnlyChanges.refl _ s).drawn (by decide)).writeV (by decide) _ _).advance (by decide)

/-! ## One result, then the flag -/

theorem exec_addReg (x y : Nibble) (s : State) : exec (.addReg x y) s =
    setResultFlag x (s.readV x + s.readV y) (carryFlag (s.readV x) (s.readV y)) s := rfl

theorem exec_subReg (x y : Nibble) (s : State) : exec (.subReg x y) s =
    setResultFlag x (s.readV x - s.readV y) (notBorrowFlag (s.readV x) (s.readV y)) s := rfl

theorem exec_subn (x y : Nibble) (s : State) : exec (.subn x y) s =
    setResultFlag x (s.readV y - s.readV x) (notBorrowFlag (s.readV y) (s.readV x)) s := rfl

theorem exec_shr (x y : Nibble) (s : State) : exec (.shr x y) s =
    setResultFlag x (s.readV x >>> 1) (shiftOutRight (s.readV x)) s := rfl

theorem exec_shl (x y : Nibble) (s : State) : exec (.shl x y) s =
    setResultFlag x (s.readV x <<< 1) (shiftOutLeft (s.readV x)) s := rfl

/-- What an instruction does that stores one result and then the flag: with VF as the destination the flag
stays (R141, D3). -/
theorem exec_setResultFlag_class {instr : Instr} {s : State} {x : Nibble} {r f : Byte}
    (hexec : exec instr s = setResultFlag x r f s) :
    ∃ t, exec instr s = .next t ∧ (x ≠ 0xF#4 → t.readV x = r) ∧ t.readV 0xF#4 = f ∧
      t.pc = s.pc + 2#16 ∧ OnlyRegs [x, 0xF#4] s t ∧ OnlyChanges [.v, .pc] s t := by
  refine ⟨((s.writeV x r).writeV vf f).advance, hexec, fun hx => ?result, by simp [vf], rfl, ?regs, ?frame⟩
  case result => rw [State.readV_advance, State.readV_writeV_ne _ _ _ _ hx, State.readV_writeV_same]
  case regs =>
    have hx : OnlyRegs [x, 0xF#4] s (s.writeV x r) := (OnlyRegs.refl _ s).writeV List.mem_cons_self r
    exact (hx.writeV (List.mem_cons_of_mem _ (List.mem_singleton_self vf)) f).advance
  case frame =>
    exact (((OnlyChanges.refl _ s).writeV (by decide) x r).writeV (by decide) vf f).advance (by decide)

theorem toNat_flagByte_decide (p : Prop) [Decidable p] :
    (flagByte (decide p)).toNat = if p then 1 else 0 := by
  by_cases h : p <;> simp [flagByte, h]

theorem toNat_shiftOutRight (a : Byte) : (shiftOutRight a).toNat = a.toNat % 2 := by
  rw [shiftOutRight, BitVec.toNat_and]
  exact Nat.and_one_is_mod _

theorem toNat_shiftOutLeft (a : Byte) : (shiftOutLeft a).toNat = a.toNat / 128 := by
  have hbit : (shiftOutLeft a).toNat = a.toNat >>> 7 % 2 := by
    rw [shiftOutLeft, BitVec.toNat_and, BitVec.toNat_ushiftRight]
    exact Nat.and_one_is_mod _
  rw [hbit, Nat.shiftRight_eq_div_pow]
  omega

theorem toNat_byte_sub (a b : Byte) : (a - b).toNat = (256 + a.toNat - b.toNat) % 256 := by
  rw [BitVec.toNat_sub]
  omega

/-- Settles O40: the byte sum is the exact sum modulo 256, the flag its carry. -/
theorem addSetsTheCarryFlag : Obligations.AddSetsTheCarryFlag := by
  intro x y s
  obtain ⟨t, hexec, hresult, hflag, hrest⟩ := exec_setResultFlag_class (exec_addReg x y s)
  refine ⟨t, hexec, fun hx => ?_, ?_, hrest⟩
  · rw [hresult hx, BitVec.toNat_add]
  · rw [hflag, carryFlag, toNat_flagByte_decide]

/-- What a subtraction does: the difference modulo 256, and the flag 1 iff nothing is borrowed. -/
theorem exec_sub_class {instr : Instr} {s : State} {x : Nibble} {a b : Byte}
    (hexec : exec instr s = setResultFlag x (a - b) (notBorrowFlag a b) s) :
    ∃ t, exec instr s = .next t ∧
      (x ≠ 0xF#4 → (t.readV x).toNat = (256 + a.toNat - b.toNat) % 256) ∧
      (t.readV 0xF#4).toNat = (if b.toNat ≤ a.toNat then 1 else 0) ∧
      t.pc = s.pc + 2#16 ∧ OnlyRegs [x, 0xF#4] s t ∧ OnlyChanges [.v, .pc] s t := by
  obtain ⟨t, hnext, hresult, hflag, hrest⟩ := exec_setResultFlag_class hexec
  refine ⟨t, hnext, fun hx => ?_, ?_, hrest⟩
  · rw [hresult hx, toNat_byte_sub]
  · rw [hflag, notBorrowFlag, toNat_flagByte_decide]

/-- Settles O41: both are subtractions, SUBN with the operands exchanged. -/
theorem subtractionsSetTheNotBorrowFlag : Obligations.SubtractionsSetTheNotBorrowFlag :=
  fun x y s => ⟨exec_sub_class (exec_subReg x y s), exec_sub_class (exec_subn x y s)⟩

/-- Settles O42: a shift by one halves or doubles, and the flag is bit 0 or bit 7. -/
theorem shiftsMoveTheLostBitToTheFlag : Obligations.ShiftsMoveTheLostBitToTheFlag := by
  refine fun x y s => ⟨?shr, ?shl⟩
  case shr =>
    obtain ⟨t, hexec, hresult, hflag, hrest⟩ := exec_setResultFlag_class (exec_shr x y s)
    refine ⟨t, hexec, fun hx => ?_, ?_, hrest⟩
    · rw [hresult hx, BitVec.toNat_ushiftRight, Nat.shiftRight_eq_div_pow, pow_one]
    · rw [hflag, toNat_shiftOutRight]
  case shl =>
    obtain ⟨t, hexec, hresult, hflag, hrest⟩ := exec_setResultFlag_class (exec_shl x y s)
    refine ⟨t, hexec, fun hx => ?_, ?_, hrest⟩
    · rw [hresult hx, BitVec.toNat_shiftLeft, Nat.shiftLeft_eq, pow_one, Nat.mul_comm]
    · rw [hflag, toNat_shiftOutLeft]

end Sys2Proof.Machine
end

section
/-! Proofs of the index-register and memory-transfer statements (spec/43_index_memory.md R171 to R175): the
decimal digits, the registers as a list in memory, and the two as each other's inverse. -/

namespace Sys2Proof.Machine

/-! ## Frames -/

section
variable {fs : List Field} {s t : State}

theorem OnlyChanges.setMem (h : OnlyChanges fs s t) (hmem : Field.mem ∈ fs) (m : Memory) :
    OnlyChanges fs s (t.setMem m) := by
  intro f hf
  cases f
  case mem => exact absurd hmem hf
  all_goals exact h _ hf

theorem OnlyChanges.setV (h : OnlyChanges fs s t) (hv : Field.v ∈ fs) (a : RegFile) :
    OnlyChanges fs s (t.setV a) := by
  intro f hf
  cases f
  case v => exact absurd hv hf
  all_goals exact h _ hf

theorem OnlyChanges.writeRegs (h : OnlyChanges fs s t) (hv : Field.v ∈ fs) (bs : List Byte) :
    OnlyChanges fs s (t.writeRegs bs) :=
  h.setV hv _

end

/-! ## The index register -/

theorem exec_addI (x : Nibble) (s : State) :
    exec (.addI x) s = .next (s.setI (s.i + zext16 (s.readV x))).advance := rfl

theorem exec_ldF (x : Nibble) (s : State) :
    exec (.ldF x) s = .next (s.setI (glyphAddr (s.readV x))).advance := rfl

/-- Five times a byte fits a word. -/
theorem toNat_glyphAddr (b : Byte) : (glyphAddr b).toNat = 5 * b.toNat := by
  rw [glyphAddr, BitVec.toNat_mul, toNat_zext16, show (5#16).toNat = 5 from rfl]
  omega

/-- A new index and the next pc: all that the index arithmetic changes. -/
theorem onlyChanges_setI_advance (s : State) (a : Word) : OnlyChanges [.i, .pc] s (s.setI a).advance :=
  ((OnlyChanges.refl _ s).setI (by decide) a).advance (by decide)

/-- Settles O44: the word sum is modulo 2^16, and the glyph address fits. -/
theorem indexArithmetic : Obligations.IndexArithmetic := by
  refine fun x s => ⟨⟨_, exec_addI x s, ?sum, rfl, onlyChanges_setI_advance s _⟩,
    ⟨_, exec_ldF x s, toNat_glyphAddr _, rfl, onlyChanges_setI_advance s _⟩⟩
  case sum => rw [State.advance_i, State.setI_i, BitVec.toNat_add, toNat_zext16]

/-! ## What a store leaves in memory -/

/-- Settles O47: past the bound `MemWrite` fails at its start address. -/
theorem storesPastTheBoundHaltUnchanged : Obligations.StoresPastTheBoundHaltUnchanged :=
  fun _ _ => ⟨fun h => next_of_raise (exec_ldB_faults h), fun h => next_of_raise (exec_storeRegs_faults h)⟩

/-- The digits, hundreds first, make up the byte, and the last two are digits. -/
theorem decimalDigits_value (b : Byte) :
    100 * (b / 100#8).toNat + 10 * (b / 10#8 % 10#8).toNat + (b % 10#8).toNat = b.toNat ∧
      (b / 10#8 % 10#8).toNat < 10 ∧ (b % 10#8).toNat < 10 := by
  simp only [BitVec.toNat_udiv, BitVec.toNat_umod, BitVec.toNat_ofNat, Nat.reducePow, Nat.reduceMod]
  omega

/-- Settles O45: the write is inside the bound, and its three bytes are the digits. -/
theorem decimalDigitsAreStored : Obligations.DecimalDigitsAreStored := by
  intro x s hfit
  obtain ⟨hvalue, htens, hunits⟩ := decimalDigits_value (s.readV x)
  have hread := Memory.read_writeBytes_inside s.mem s.i.toNat (decimalDigits (s.readV x))
  have h0 := hread 0 (Nat.succ_pos _)
  have h1 := hread 1 (show 1 < 3 by decide)
  have h2 := hread 2 (show 2 < 3 by decide)
  rw [Nat.add_zero] at h0
  refine ⟨_, exec_ldB_stores hfit, ?value, ?tens, ?units, ?bytes, rfl, ?frame⟩
  case value =>
    rw [State.advance_mem, State.setMem_mem, State.dataAddr, h0, h1, h2]
    exact hvalue
  case tens =>
    rw [State.advance_mem, State.setMem_mem, State.dataAddr, h1]
    exact htens
  case units =>
    rw [State.advance_mem, State.setMem_mem, State.dataAddr, h2]
    exact hunits
  case bytes => exact fun b hb => Memory.read_writeBytes_outside _ _ _ _ hb
  case frame => exact ((OnlyChanges.refl _ s).setMem (by decide) _).advance (by decide)

/-- The byte of a register among V0..Vx stored from `a` on. -/
theorem read_writeBytes_regsUpTo (s : State) (m : Memory) (a : Nat) {x r : Nibble} (h : r.toNat ≤ x.toNat) :
    (m.writeBytes a (s.regsUpTo x)).read (a + r.toNat) = s.readV r := by
  have hr : r.toNat < (s.regsUpTo x).length := by rw [State.length_regsUpTo]; omega
  rw [Memory.read_writeBytes_inside _ _ _ _ hr, State.getElem_regsUpTo]

/-- Where a transfer that stays in memory leaves `I`: it does not wrap. -/
theorem toNat_indexAfter {s : State} {x : Nibble} (h : s.i.toNat + x.toNat < 4096) :
    (s.indexAfter x).toNat = s.i.toNat + x.toNat + 1 := by
  rw [State.indexAfter, BitVec.toNat_add, BitVec.toNat_add, BitVec.toNat_setWidth_of_le (by decide),
    show (1#16).toNat = 1 from rfl]
  omega

/-- Settles O46: the write is inside the bound, and its bytes are the registers in order. -/
theorem registersAreStored : Obligations.RegistersAreStored := by
  intro x s hfit
  refine ⟨_, exec_storeRegs_stores hfit, fun r hr => ?stored, ?bytes, ?index, rfl, ?frame⟩
  case stored => exact read_writeBytes_regsUpTo s s.mem s.i.toNat hr
  case bytes =>
    intro b hb
    exact Memory.read_writeBytes_outside _ _ _ _ (by rwa [State.length_regsUpTo])
  case index =>
    rw [State.advance_i, State.setI_i]
    exact toNat_indexAfter (Nat.lt_of_succ_lt hfit)
  case frame =>
    exact (((OnlyChanges.refl _ s).setMem (by decide) _).setI (by decide) _).advance (by decide)

/-! ## What a load leaves in the registers -/

theorem getD_bytesFrom (m : Memory) (a n k : Nat) (b : Byte) :
    (bytesFrom m a n).getD k b = if k < n then m.read (a + k) else b := by
  unfold bytesFrom
  split
  case isTrue h => simp [List.getD_eq_getElem?_getD, h]
  case isFalse h => exact List.getD_eq_default _ _ (by simpa using h)

/-- Registers loaded from memory: V0..Vx take the bytes, the others stay. -/
theorem readV_writeRegs_bytesFrom (s : State) (m : Memory) (a : Nat) (x r : Nibble) :
    (s.writeRegs (bytesFrom m a (x.toNat + 1))).readV r =
      if r.toNat ≤ x.toNat then m.read (a + r.toNat) else s.readV r := by
  rw [State.readV_writeRegs, getD_bytesFrom]
  simp only [Nat.lt_succ_iff]

/-- Settles O48: every read is in memory, and the bytes go to the registers in order. -/
theorem registersAreLoaded : Obligations.RegistersAreLoaded := by
  intro x s hfit
  refine ⟨_, exec_loadRegs_loads (Nat.succ_le_of_lt hfit), fun r hr => ?loaded, fun r hr => ?kept, ?index,
    ?pc, ?frame⟩
  case loaded =>
    rw [State.readV_advance, State.readV_setI, readV_writeRegs_bytesFrom, if_pos hr]
    rfl
  case kept =>
    rw [State.readV_advance, State.readV_setI, readV_writeRegs_bytesFrom, if_neg (Nat.not_le.2 hr)]
  case index =>
    rw [State.advance_i, State.setI_i]
    exact toNat_indexAfter hfit
  case pc => rw [State.advance_pc, State.setI_pc, State.writeRegs_pc]
  case frame =>
    exact (((OnlyChanges.refl _ s).writeRegs (by decide) _).setI (by decide) _).advance (by decide)

/-- The first address past memory that an access from `a` on meets. -/
theorem first_missing_address (a : Nat) : (if a < 4096 then 4096 else a) = max a Config.memSize := by
  unfold Config.memSize
  split <;> omega

/-- Settles O49: the reads stop at the first address past memory, and a register is old or loaded. -/
theorem loadsPastMemoryHalt : Obligations.LoadsPastMemoryHalt := by
  intro x s hpast
  rw [first_missing_address]
  refine ⟨_, exec_loadRegs_faults (Nat.lt_succ_of_le hpast), State.setStatus_status _ _, fun r => ?regs, ?frame⟩
  case regs =>
    simp only [State.readV_setStatus, State.readV_drawn]
    exact readV_residueRegs s.draws s.mem s.dataAddr x r s
  case frame =>
    exact (((OnlyChanges.refl _ s).setV (by decide) _).drawn (by decide)).setStatus (by decide) _

/-! ## The store and what reads it back -/

/-- Settles O50: the load reads the stored bytes, and both leave `I` at the same word. -/
theorem loadAfterStoreRestoresTheRegisters : Obligations.LoadAfterStoreRestoresTheRegisters := by
  intro x s hfit
  refine ⟨_, exec_storeRegs_stores hfit, fun s' hmem hi => ?_⟩
  have hfit' : s'.i.toNat + (x.toNat + 1) ≤ Config.memSize := by
    rw [hi]
    exact hfit.le
  refine ⟨_, exec_loadRegs_loads hfit', fun r hr => ?regs, ?index⟩
  case regs =>
    rw [State.readV_advance, State.readV_setI, readV_writeRegs_bytesFrom, if_pos hr, State.dataAddr, hmem, hi]
    exact read_writeBytes_regsUpTo s s.mem s.i.toNat hr
  case index =>
    simp only [State.advance_i, State.setI_i, State.indexAfter, hi]

/-- Settles O51: pc has come to `I`, where the first two stored bytes are V0 and V1. -/
theorem aStoreIsSeenByTheNextFetch : Obligations.AStoreIsSeenByTheNextFetch := by
  intro x s hx hi hfit
  have hpc : s.pc + 2#16 = s.i := by bv_omega
  refine ⟨_, exec_storeRegs_stores hfit, hpc, ?_⟩
  rw [fetch_ok]
  · rw [State.advance_pc, State.setI_pc, State.setMem_pc, hpc, State.advance_mem, State.setI_mem,
      State.setMem_mem]
    have h0 := read_writeBytes_regsUpTo s s.mem s.i.toNat (x := x) (r := 0x0#4) (Nat.zero_le _)
    have h1 := read_writeBytes_regsUpTo s s.mem s.i.toNat (x := x) (r := 0x1#4) hx
    exact congrArg Except.ok (congrArg₂ wordOfBytes h0 h1)
  · rw [State.advance_pc, State.setI_pc, State.setMem_pc, hpc]
    unfold Config.memSize
    omega

end Sys2Proof.Machine
end

section
/-! Proofs of the remaining reset, host and memory-representation statements (spec/70_reset_and_hazards.md R43,
R260, R262; spec/45_timers_keyboard.md R211, R212; log entry 5). -/

namespace Sys2Proof.Machine

/-! ## The canonical form is one list for one memory -/

/-- Below its first listed address a memory reads as the background. -/
theorem Memory.read_of_below {m : Memory} {a : Nat} (h : ∀ d ∈ m, a < d.1) : m.read a = Memory.background a := by
  induction m with
  | nil => rfl
  | cons c m ih =>
    rw [Memory.read_cons, if_neg (h c List.mem_cons_self).ne']
    exact ih fun d hd => h d (List.mem_cons_of_mem c hd)

theorem Memory.read_head (c : Host.Cell) (m : Memory) : Memory.read (c :: m) c.1 = c.2 := if_pos rfl

/-- A listed first address below every address of another memory tells the two apart. -/
theorem Memory.read_head_ne {c : Host.Cell} {m m' : Memory} (hc : c.2 ≠ Memory.background c.1)
    (h : ∀ d ∈ m', c.1 < d.1) : Memory.read (c :: m) c.1 ≠ m'.read c.1 := by
  rwa [Memory.read_head, Memory.read_of_below h]

/-- An address below the first cell of a rising memory is below every cell of it. -/
theorem Memory.below_cons {a : Nat} {c : Host.Cell} {m : Memory} (ha : a < c.1) (h : ∀ d ∈ m, c.1 < d.1) :
    ∀ d ∈ c :: m, a < d.1 := by
  intro d hd
  obtain rfl | hd := List.mem_cons.1 hd
  · exact ha
  · exact ha.trans (h d hd)

/-- Settles O25: of two first cells the one at the lower address would be read in its memory only; so they are
one cell, and the tails read alike. -/
theorem canonicalMemoriesThatReadAlikeAreEqual : Obligations.CanonicalMemoriesThatReadAlikeAreEqual := by
  intro m
  induction m with
  | nil =>
    rintro (_ | ⟨c', m'⟩) - hwf' hread
    · rfl
    · obtain ⟨-, hne', -, -⟩ := (Memory.wf_cons c' m').1 hwf'
      exact absurd (hread c'.1).symm (Memory.read_head_ne hne' (by simp))
  | cons c m ih =>
    rintro (_ | ⟨c', m'⟩) hwf hwf' hread
    · obtain ⟨-, hne, -, -⟩ := (Memory.wf_cons c m).1 hwf
      exact absurd (hread c.1) (Memory.read_head_ne hne (by simp))
    · obtain ⟨-, hne, hrise, hwf⟩ := (Memory.wf_cons c m).1 hwf
      obtain ⟨-, hne', hrise', hwf'⟩ := (Memory.wf_cons c' m').1 hwf'
      obtain hlt | haddr | hgt := Nat.lt_trichotomy c.1 c'.1
      · exact absurd (hread c.1) (Memory.read_head_ne hne (Memory.below_cons hlt hrise'))
      · have hbyte : c.2 = c'.2 := by
          rw [← Memory.read_head c m, hread, haddr, Memory.read_head]
        have htail : ∀ a, Memory.read m a = Memory.read m' a := by
          intro a
          by_cases ha : c.1 = a
          · rw [← ha, Memory.read_of_below hrise, haddr, Memory.read_of_below hrise']
          · have hcons := hread a
            rwa [Memory.read_cons, Memory.read_cons, if_neg ha, if_neg (haddr ▸ ha)] at hcons
        rw [Prod.ext haddr hbyte, ih m' hwf hwf' htail]
      · exact absurd (hread c'.1).symm (Memory.read_head_ne hne' (Memory.below_cons hgt hrise))

/-! ## RESET -/

/-- Above the font an unlisted address reads 0x00. -/
theorem Memory.background_above_font {a : Nat} (h : 0x050 ≤ a) : Memory.background a = 0x00#8 :=
  List.getD_eq_default _ _ h

theorem State.readV_reset (r : Nibble) : State.reset.readV r = 0x00#8 := Vector.getElem_replicate _

/-- Settles O1: the fields are evaluated, and the RESET action sets the draw counter of that state. -/
theorem resetStateIsTheSpecs : Obligations.ResetStateIsTheSpecs := by
  refine ⟨rfl, rfl, pixel_displayClear, ?font, fun a ha => Memory.background_above_font ha, State.readV_reset,
    rfl, rfl, rfl, rfl, rfl, fun h => ?action⟩
  case font => rfl
  case action => exact ⟨_, rfl, (OnlyChanges.refl _ _).setDraws (by decide) _, rfl⟩

/-! ## TICK -/

theorem OnlyChanges.tick {fs : List Field} {s t : State} (h : OnlyChanges fs s t) (hdt : Field.dt ∈ fs)
    (hst : Field.st ∈ fs) : OnlyChanges fs s t.tick :=
  (h.setDt hdt _).setSt hst _

theorem toNat_ticks_dt (s : State) (k : Nat) : (ticks s k).dt.toNat = s.dt.toNat - k := by
  induction k generalizing s with
  | zero => rfl
  | succ k ih => rw [ticks, ih, State.tick_dt, toNat_countDown, Nat.sub_sub, Nat.add_comm]

theorem toNat_ticks_st (s : State) (k : Nat) : (ticks s k).st.toNat = s.st.toNat - k := by
  induction k generalizing s with
  | zero => rfl
  | succ k ih => rw [ticks, ih, State.tick_st, toNat_countDown, Nat.sub_sub, Nat.add_comm]

theorem OnlyChanges.ticks {s t : State} (h : OnlyChanges [.dt, .st] s t) (k : Nat) :
    OnlyChanges [.dt, .st] s (ticks t k) := by
  induction k generalizing t with
  | zero => exact h
  | succ k ih => exact ih (h.tick (by decide) (by decide))

theorem Session.run_ticks (h : Session) (k : Nat) :
    h.run (List.replicate k .tick) = ⟨ticks h.core k, h.loadOpen⟩ := by
  induction k generalizing h with
  | zero => rfl
  | succ k ih => rw [List.replicate_succ, Session.run, Session.act_tick, ih, Machine.ticks]

/-- Settles O7: by induction over the ticks, each one less. -/
theorem timersAfterManyTicks : Obligations.TimersAfterManyTicks :=
  ⟨fun s k => ⟨toNat_ticks_dt s k, toNat_ticks_st s k, (OnlyChanges.refl _ s).ticks k⟩,
    fun h => ⟨h.act_tick, h.run_ticks⟩⟩

/-! ## SET_KEY -/

theorem OnlyChanges.setLatch {fs : List Field} {s t : State} (h : OnlyChanges fs s t)
    (hlatch : Field.latch ∈ fs) (l : Option Nibble) : OnlyChanges fs s (t.setLatch l) := by
  intro f hf
  cases f
  case latch => exact absurd hlatch hf
  all_goals exact h _ hf

theorem onlyChanges_setLatch (s : State) (l : Option Nibble) : OnlyChanges [.latch] s (s.setLatch l) :=
  (OnlyChanges.refl _ s).setLatch (by decide) l

theorem State.setKey_in_range (s : State) {k : Nat} (h : k < 16) :
    s.setKey (some k) = .next (s.setLatch (some (BitVec.ofNat 4 k))) :=
  if_pos (decide_eq_true h)

theorem State.setKey_out_of_range (s : State) {k : Nat} (h : 16 ≤ k) :
    s.setKey (some k) = .refused (.keyOutOfRange k) :=
  if_neg fun hk => Nat.not_lt.2 h (of_decide_eq_true hk)

theorem Session.act_setKey_next {s t : State} {k : Option Nat} (o : Bool) (h : s.setKey k = .next t) :
    Session.act ⟨s, o⟩ (.setKey k) = (.ok, ⟨t, o⟩) := by
  simp only [Session.act, Session.actKey, h]

theorem Session.act_setKey_refused {s : State} {k : Option Nat} {r : Refusal} (o : Bool)
    (h : s.setKey k = .refused r) : Session.act ⟨s, o⟩ (.setKey k) = (.refused r, ⟨s, o⟩) := by
  simp only [Session.act, Session.actKey, h]

/-- Settles O8: a key below 16 fits the latch, and the action passes on what SET_KEY answers. -/
theorem setKeyReplacesTheLatch : Obligations.SetKeyReplacesTheLatch := by
  intro s
  have hkey : ∀ k : Nat, k < 16 → (BitVec.ofNat 4 k).toNat = k := fun k hk => Nat.mod_eq_of_lt hk
  refine ⟨⟨_, rfl, rfl, onlyChanges_setLatch s none⟩, fun k hk => ?inRange,
    fun k hk => s.setKey_out_of_range hk,
    fun o => ⟨⟨_, rfl, rfl, onlyChanges_setLatch s none⟩, fun k hk => ?actInRange, fun k hk => ?actOutOfRange⟩⟩
  case inRange => exact ⟨_, _, s.setKey_in_range hk, rfl, hkey k hk, onlyChanges_setLatch s _⟩
  case actInRange =>
    exact ⟨_, _, Session.act_setKey_next o (s.setKey_in_range hk), rfl, hkey k hk, onlyChanges_setLatch s _⟩
  case actOutOfRange => exact Session.act_setKey_refused o (s.setKey_out_of_range hk)

/-! ## LOAD -/

section
variable {s : State} {image : List Byte}

theorem Session.act_load_of_ok {m : Memory} (h : memWrite s.mem Config.entry.toNat image = .ok m) :
    Session.act ⟨s, true⟩ (.load image) = (.ok, ⟨s.setMem m, false⟩) := by
  simp only [Session.act, Session.actLoad, State.load, h, if_true]

theorem Session.act_load_of_error {e : FaultInfo} (h : memWrite s.mem Config.entry.toNat image = .error e) :
    Session.act ⟨s, true⟩ (.load image) =
      (.loadFault (.loadOutOfBounds Config.entry.toNat), ⟨s, true⟩) := by
  simp only [Session.act, Session.actLoad, State.load, h, if_true]

/-- An image of at most 3583 bytes ends below the bound of the write. -/
theorem memWrite_image_ok (h : image.length ≤ 3583) :
    memWrite s.mem Config.entry.toNat image = .ok (s.mem.writeBytes 0x200 image) :=
  memWrite_ok s.mem 0x200 image (by unfold Config.memSize; omega)

theorem memWrite_image_error (h : 3584 ≤ image.length) :
    memWrite s.mem Config.entry.toNat image = .error (.outOfBounds 0x200) :=
  memWrite_error s.mem 0x200 image (by unfold Config.memSize; omega)

end

/-- Settles O9: the write of the image at 0x200 is inside the bound up to 3583 bytes. -/
theorem loadWritesTheImageAtTheEntry : Obligations.LoadWritesTheImageAtTheEntry := by
  refine fun s image => ⟨fun hfit => ?fits, fun hlong => Session.act_load_of_error (memWrite_image_error hlong), rfl⟩
  case fits =>
    exact ⟨_, Session.act_load_of_ok (memWrite_image_ok hfit), fun k hk => Memory.read_writeBytes_inside _ _ _ _ hk,
      fun b hb => Memory.read_writeBytes_outside _ _ _ _ hb, (OnlyChanges.refl _ s).setMem (by decide) _⟩

end Sys2Proof.Machine
end

section
/-! Proofs of the remaining display statements (spec/44_display.md R195, R196): CLS, and DRW whether every row
can be read or not. -/

namespace Sys2Proof.Machine

theorem OnlyChanges.setDisp {fs : List Field} {s t : State} (h : OnlyChanges fs s t)
    (hdisp : Field.disp ∈ fs) (d : Display) : OnlyChanges fs s (t.setDisp d) := by
  intro f hf
  cases f
  case disp => exact absurd hdisp hf
  all_goals exact h _ hf

theorem exec_cls (u : Nibble) (s : State) : exec (.cls u) s = .next (s.setDisp displayClear).advance := rfl

/-- Settles O52: the display is the clear one. -/
theorem clearScreenClearsEveryPixel : Obligations.ClearScreenClearsEveryPixel :=
  fun u s => ⟨_, exec_cls u s, pixel_displayClear, rfl,
    ((OnlyChanges.refl _ s).setDisp (by decide) _).advance (by decide)⟩

/-- The sprite's bit over a pixel, as the row loop finds it from row 0 on. -/
theorem spriteAt_eq (m : Memory) (base cx cy n col row : Nat) :
    spriteAt m base cx cy n col row =
      (decide (0 ≤ spriteRow cy row) && decide (spriteRow cy row < 0 + n) && decide (spriteCol cx col < 8) &&
        spriteBit (m.read (base + spriteRow cy row)) (spriteCol cx col)) := by
  simp [spriteAt, spriteBit]

/-- The rows that can be read are those of a sprite that ends with memory. -/
theorem spriteAt_cut (m : Memory) (base cx cy col row : Nat) :
    spriteAt m base cx cy (4096 - base) col row =
      (decide (0 ≤ spriteRow cy row) && decide (base + spriteRow cy row < Config.memSize) &&
        decide (spriteCol cx col < 8) &&
        spriteBit (m.read (base + spriteRow cy row)) (spriteCol cx col)) := by
  have hrow : spriteRow cy row < 4096 - base ↔ base + spriteRow cy row < Config.memSize := by
    unfold Config.memSize
    omega
  rw [spriteAt_eq, Nat.zero_add, decide_eq_decide.2 hrow]

theorem toNat_collisionFlag_eq_one (c : Bool) : (collisionFlag c).toNat = 1 ↔ c = true := by
  cases c <;> decide

/-- Settles O54: the row loop reaches its end; it XORs the sprite and reports the collision that VF takes. -/
theorem drawXorsTheSprite : Obligations.DrawXorsTheSprite := by
  intro x y n s hfit
  have hrows : 0 + countOf n ≤ 32 := by unfold countOf; omega
  have hreads : countOf n = 0 ∨ s.dataAddr + 0 + countOf n ≤ Config.memSize := hfit
  obtain ⟨d, c, hloop, hpixels, hcollided⟩ :=
    drawRows_done s.mem s.dataAddr (s.readV x).toNat (s.readV y).toNat (countOf n) 0 s.disp false hrows hreads
  have hvf : (((s.setDisp d).writeV vf (collisionFlag c)).advance).readV 0xF#4 = collisionFlag c := by
    simp [vf]
  refine ⟨_, exec_drw_done hloop, fun col row => ?pixels, ?bit, ?collision, ?regs, rfl, ?frame⟩
  case pixels =>
    rw [spriteAt_eq]
    exact hpixels col row
  case bit =>
    rw [hvf]
    cases c
    · exact .inl rfl
    · exact .inr rfl
  case collision =>
    rw [hvf, toNat_collisionFlag_eq_one, hcollided]
    constructor
    · rintro (hfalse | ⟨r, j, -, hr, hj, hlit, hbit⟩)
      · cases hfalse
      · exact ⟨r, j, by rwa [Nat.zero_add] at hr, hj, hlit, hbit⟩
    · rintro ⟨r, j, hr, hj, hlit, hbit⟩
      exact .inr ⟨r, j, Nat.zero_le r, by rwa [Nat.zero_add], hj, hlit, hbit⟩
  case regs =>
    have hdisp : OnlyRegs [0xF#4] s (s.setDisp d) := fun _ _ => rfl
    exact (hdisp.writeV (List.mem_singleton_self vf) _).advance
  case frame =>
    exact (((OnlyChanges.refl _ s).setDisp (by decide) d).writeV (by decide) _ _).advance (by decide)

/-- Settles O55: the row loop stops at the first address past memory, and each pixel is old or as drawn. -/
theorem drawPastMemoryHalts : Obligations.DrawPastMemoryHalts := by
  intro x y n s hn hpast
  rw [first_missing_address]
  have hrows : 0 + countOf n ≤ 32 := by unfold countOf; omega
  obtain ⟨d, hloop, hpixels⟩ := drawRows_stopped s.mem s.dataAddr (s.readV x).toNat (s.readV y).toNat
    (countOf n) 0 s.disp false hrows hn hpast
  refine ⟨_, exec_drw_stopped hloop, State.setStatus_status _ _, fun col row => ?pixels, ?frame⟩
  case pixels =>
    rw [spriteAt_cut]
    exact (pixel_residueDisplay s.draws s.disp d col row).imp_right fun h => h.trans (hpixels col row)
  case frame =>
    exact (((OnlyChanges.refl _ s).setDisp (by decide) _).drawn (by decide)).setStatus (by decide) _

end Sys2Proof.Machine
end

section
/-! Proofs of the statements about every instruction (spec/10_state.md R21 to R41; spec/20_memory.md R54; D24):
what each may change, class by class of instruction, and that the sound timer is only carried along. -/

namespace Sys2Proof.Machine

/-! ## Frames of the classes that store a result -/

section
variable {i : Instr} {s t : State} {x : Nibble} {r f : Byte}

theorem frames_of_setResult (h : exec i s = .next t) (hexec : exec i s = setResult x r s) :
    OnlyRegs [x] s t ∧ OnlyChanges [.v, .pc] s t := by
  obtain ⟨t', hnext, -, -, hframes⟩ := exec_setResult_class hexec
  rwa [Host.Outcome.next.inj (h.symm.trans hnext)]

theorem frames_of_setResultFlag (h : exec i s = .next t) (hexec : exec i s = setResultFlag x r f s) :
    OnlyRegs [x, 0xF#4] s t ∧ OnlyChanges [.v, .pc] s t := by
  obtain ⟨t', hnext, -, -, -, hframes⟩ := exec_setResultFlag_class hexec
  rwa [Host.Outcome.next.inj (h.symm.trans hnext)]

end

/-! ## What each instruction changes -/

/-- Settles O58: each way an instruction ends updates listed pieces of state only. -/
theorem instructionsChangeOnlyTheirOwnState : Obligations.InstructionsChangeOnlyTheirOwnState := by
  intro i s t h
  have hrefl : ∀ fs, OnlyChanges fs s s := fun fs => OnlyChanges.refl fs s
  cases i
  case jp | jpV0 =>
    obtain rfl := Host.Outcome.next.inj h
    exact (hrefl [.pc]).setPc (by decide) _
  case seImm | sneImm | seReg | sneReg | skp | sknp =>
    obtain rfl := Host.Outcome.next.inj h
    exact (hrefl [.pc]).skipIf (by decide) _
  case ldImm | addImm | ldReg | orReg | andReg | xorReg | ldVxDt => exact (frames_of_setResult h rfl).2
  case addReg | subReg | subn | shr | shl => exact (frames_of_setResultFlag h rfl).2
  case ldI | addI | ldF =>
    obtain rfl := Host.Outcome.next.inj h
    exact onlyChanges_setI_advance s _
  case cls u =>
    obtain rfl := Host.Outcome.next.inj h
    exact ((hrefl [.disp, .pc]).setDisp (by decide) _).advance (by decide)
  case ldDtVx x =>
    obtain rfl := Host.Outcome.next.inj h
    exact ((hrefl [.dt, .pc]).setDt (by decide) _).advance (by decide)
  case ldStVx x =>
    obtain rfl := Host.Outcome.next.inj h
    exact ((hrefl [.st, .pc]).setSt (by decide) _).advance (by decide)
  case rnd x kk =>
    obtain rfl := Host.Outcome.next.inj h
    exact (((hrefl [.v, .pc, .draws]).drawn (by decide)).writeV (by decide) _ _).advance (by decide)
  case ret u =>
    obtain ⟨-, rfl⟩ | ⟨as, a, -, rfl⟩ := exec_ret_cases h
    · exact (hrefl [.pc, .stack, .status]).setStatus (by decide) _
    · exact ((hrefl [.pc, .stack, .status]).setStack (by decide) as).setPc (by decide) a
  case call nnn =>
    obtain ⟨-, rfl⟩ | ⟨-, rfl⟩ := exec_call_cases h
    · exact (hrefl [.pc, .stack, .status]).setStatus (by decide) _
    · exact ((hrefl [.pc, .stack, .status]).setStack (by decide) _).setPc (by decide) _
  case ldB x =>
    obtain ⟨e, rfl⟩ | ⟨-, rfl⟩ := exec_ldB_cases h
    · exact (hrefl [.mem, .pc, .status]).setStatus (by decide) _
    · exact ((hrefl [.mem, .pc, .status]).setMem (by decide) _).advance (by decide)
  case storeRegs x =>
    obtain ⟨e, rfl⟩ | ⟨-, rfl⟩ := exec_storeRegs_cases h
    · exact (hrefl [.mem, .i, .pc, .status]).setStatus (by decide) _
    · exact (((hrefl [.mem, .i, .pc, .status]).setMem (by decide) _).setI (by decide) _).advance (by decide)
  case loadRegs x =>
    obtain ⟨e, rfl⟩ | ⟨bs, -, rfl⟩ := exec_loadRegs_cases h
    · exact (((hrefl [.v, .i, .pc, .status, .draws]).setV (by decide) _).drawn (by decide)).setStatus (by decide) _
    · exact (((hrefl [.v, .i, .pc, .status, .draws]).writeRegs (by decide) bs).setI (by decide) _).advance
        (by decide)
  case drw x y n =>
    obtain ⟨d, c, rfl⟩ | ⟨e, d, rfl⟩ := exec_drw_cases h
    · exact (((hrefl [.v, .pc, .disp, .status, .draws]).setDisp (by decide) d).writeV (by decide) _ _).advance
        (by decide)
    · exact (((hrefl [.v, .pc, .disp, .status, .draws]).setDisp (by decide) _).drawn (by decide)).setStatus
        (by decide) _
  case ldVxK x =>
    obtain ⟨-, rfl⟩ | ⟨k, -, rfl⟩ := exec_ldVxK_cases h
    · exact hrefl [.v, .pc]
    · exact ((hrefl [.v, .pc]).writeV (by decide) x _).advance (by decide)

/-- Settles O26: memory is written by LD B and LD [I] only, inside a bound that leaves 0xFFF out. -/
theorem noInstructionWritesTheTopByte : Obligations.NoInstructionWritesTheTopByte := by
  intro i s t h
  have hframe := instructionsChangeOnlyTheirOwnState i s t h
  cases i
  case ldB x =>
    obtain ⟨e, rfl⟩ | ⟨hfit, rfl⟩ := exec_ldB_cases h
    · rfl
    · refine Memory.read_writeBytes_outside _ _ _ _ fun hin => ?_
      have hdigits : (decimalDigits (s.readV x)).length = 3 := rfl
      unfold Config.memSize at hfit
      omega
  case storeRegs x =>
    obtain ⟨e, rfl⟩ | ⟨hfit, rfl⟩ := exec_storeRegs_cases h
    · rfl
    · refine Memory.read_writeBytes_outside _ _ _ _ fun hin => ?_
      rw [State.length_regsUpTo] at hin
      unfold Config.memSize at hfit
      omega
  all_goals exact hframe .mem (by simp [writesFields]) 0xFFF

/-- Settles O59: an instruction that lists no register keeps them all; the others store one result, a result and
the flag, the flag alone, a key, or the loaded registers. -/
theorem instructionsWriteOnlyTheirOwnRegisters : Obligations.InstructionsWriteOnlyTheirOwnRegisters := by
  intro i s t h r hr
  have hframe := instructionsChangeOnlyTheirOwnState i s t h
  cases i
  case ldImm | addImm | ldReg | orReg | andReg | xorReg | ldVxDt =>
    exact (frames_of_setResult h rfl).1 r (by simpa [Instr.writesReg] using hr)
  case addReg | subReg | subn | shr | shl =>
    exact (frames_of_setResultFlag h rfl).1 r (by simpa [Instr.writesReg] using hr)
  case rnd x kk =>
    obtain rfl := Host.Outcome.next.inj h
    exact State.readV_writeV_ne _ _ _ _ (by simpa [Instr.writesReg] using hr)
  case drw x y n =>
    obtain ⟨d, c, rfl⟩ | ⟨e, d, rfl⟩ := exec_drw_cases h
    · exact State.readV_writeV_ne _ _ _ _ (by simpa [Instr.writesReg] using hr)
    · rw [State.readV_setStatus, State.readV_drawn, State.readV_setDisp]
  case ldVxK x =>
    obtain ⟨-, rfl⟩ | ⟨k, -, rfl⟩ := exec_ldVxK_cases h
    · rfl
    · exact State.readV_writeV_ne _ _ _ _ (by simpa [Instr.writesReg] using hr)
  case loadRegs x =>
    have hx : ¬ r.toNat ≤ x.toNat := by simpa [Instr.writesReg] using hr
    obtain hpast | hfit := Nat.lt_or_ge Config.memSize (s.dataAddr + (x.toNat + 1))
    · obtain rfl := Host.Outcome.next.inj (h.symm.trans (exec_loadRegs_faults hpast))
      rw [State.readV_setStatus, State.readV_drawn]
      exact (readV_residueRegs s.draws s.mem s.dataAddr x r s).resolve_right fun hin => hx hin.1
    · obtain rfl := Host.Outcome.next.inj (h.symm.trans (exec_loadRegs_loads hfit))
      rw [State.readV_advance, State.readV_setI, readV_writeRegs_bytesFrom, if_neg hx]
  all_goals exact hframe .v (by simp [writesFields]) r

/-! ## The sound timer is only carried along -/

/-- An answer with its next state, if it holds one, changed. -/
def mapNext (f : State → State) : Result → Result
  | .next s => .next (f s)
  | .fault r => .fault r
  | .refused r => .refused r

/-- An instruction carries ST along; only LD ST writes it, and then whatever it was. -/
theorem exec_setSt (i : Instr) (s : State) (b : Byte) :
    ∃ c, exec i (s.setSt b) = mapNext (·.setSt c) (exec i s) := by
  cases i
  case ldStVx x => exact ⟨s.readV x, rfl⟩
  case ret u =>
    refine ⟨b, ?_⟩
    obtain ⟨h, -⟩ | ⟨as, a, h, -⟩ := pop_cases s
    · rw [exec_ret_empty u h, exec_ret_empty (s := s.setSt b) u h]; rfl
    · rw [exec_ret_pops u h, exec_ret_pops (s := s.setSt b) u h]; rfl
  case call nnn =>
    refine ⟨b, ?_⟩
    obtain ⟨h, -⟩ | ⟨h, -⟩ := push_cases s (s.pc + 2#16)
    · rw [exec_call_pushes nnn h, exec_call_pushes (s := s.setSt b) nnn h]; rfl
    · rw [exec_call_full nnn h, exec_call_full (s := s.setSt b) nnn h]; rfl
  case ldB x =>
    refine ⟨b, ?_⟩
    obtain h | h := Nat.lt_or_ge (s.dataAddr + 3) Config.memSize
    · rw [exec_ldB_stores h, exec_ldB_stores (s := s.setSt b) h]; rfl
    · rw [exec_ldB_faults h, exec_ldB_faults (s := s.setSt b) h]; rfl
  case storeRegs x =>
    refine ⟨b, ?_⟩
    obtain h | h := Nat.lt_or_ge (s.dataAddr + (x.toNat + 1)) Config.memSize
    · rw [exec_storeRegs_stores h, exec_storeRegs_stores (s := s.setSt b) h]; rfl
    · rw [exec_storeRegs_faults h, exec_storeRegs_faults (s := s.setSt b) h]; rfl
  case loadRegs x =>
    refine ⟨b, ?_⟩
    obtain h | h := Nat.lt_or_ge Config.memSize (s.dataAddr + (x.toNat + 1))
    · rw [exec_loadRegs_faults h, exec_loadRegs_faults (s := s.setSt b) h]; rfl
    · rw [exec_loadRegs_loads h, exec_loadRegs_loads (s := s.setSt b) h]; rfl
  case drw x y n =>
    refine ⟨b, ?_⟩
    cases h : drawRows s.mem s.dataAddr (s.readV x).toNat (s.readV y).toNat (countOf n) 0 s.disp false with
    | done d c => rw [exec_drw_done h, exec_drw_done (s := s.setSt b) h]; rfl
    | stopped e d => rw [exec_drw_stopped h, exec_drw_stopped (s := s.setSt b) h]; rfl
  case ldVxK x =>
    refine ⟨b, ?_⟩
    cases h : s.latch with
    | none => rw [exec_ldVxK_waits h, exec_ldVxK_waits (s := s.setSt b) h]; rfl
    | some k => rw [exec_ldVxK_key h, exec_ldVxK_key (s := s.setSt b) h]; rfl
  all_goals exact ⟨b, rfl⟩

/-- So does a step: what it fetches and whether it runs do not depend on ST. -/
theorem step_setSt (s : State) (b : Byte) : ∃ c, step (s.setSt b) = mapNext (·.setSt c) (step s) := by
  cases hstatus : s.status with
  | halted r => exact ⟨b, by rw [step_of_halted hstatus, step_of_halted (s := s.setSt b) hstatus]; rfl⟩
  | running =>
    cases hfetch : fetch s with
    | error e =>
      refine ⟨b, ?_⟩
      rw [step_of_fetch_error hstatus hfetch, step_of_fetch_error (s := s.setSt b) hstatus hfetch]
      rfl
    | ok w =>
      cases hdecode : decodeWord w with
      | illegal r =>
        refine ⟨b, ?_⟩
        rw [step_of_illegal hstatus hfetch hdecode, step_of_illegal (s := s.setSt b) hstatus hfetch hdecode]
        rfl
      | instr i =>
        rw [step_of_decoded hstatus hfetch hdecode, step_of_decoded (s := s.setSt b) hstatus hfetch hdecode]
        exact exec_setSt i s b

/-- So does STEP: its response is read off the status. -/
theorem Session.act_step_setSt (s : State) (b : Byte) (o : Bool) :
    ∃ c, Session.act ⟨s.setSt b, o⟩ .step = ((Session.act ⟨s, o⟩ .step).1,
      ⟨(Session.act ⟨s, o⟩ .step).2.core.setSt c, (Session.act ⟨s, o⟩ .step).2.loadOpen⟩) := by
  obtain ⟨c, hc⟩ := step_setSt s b
  cases hstep : step s with
  | next t =>
    rw [hstep] at hc
    rw [Session.act_step_next o hstep, Session.act_step_next o hc]
    exact ⟨c, rfl⟩
  | fault r =>
    rw [hstep] at hc
    simp only [Session.act, Session.actStep, hstep, hc, mapNext]
    exact ⟨b, rfl⟩
  | refused r =>
    rw [hstep] at hc
    rw [Session.act_step_refused o hstep, Session.act_step_refused o hc]
    exact ⟨b, rfl⟩

theorem Session.act_load_setSt (s : State) (b : Byte) (o : Bool) (image : List Byte) :
    Session.act ⟨s.setSt b, o⟩ (.load image) = ((Session.act ⟨s, o⟩ (.load image)).1,
      ⟨(Session.act ⟨s, o⟩ (.load image)).2.core.setSt b, (Session.act ⟨s, o⟩ (.load image)).2.loadOpen⟩) := by
  cases o with
  | false => rfl
  | true =>
    cases h : memWrite s.mem Config.entry.toNat image with
    | error e => rw [Session.act_load_of_error h, Session.act_load_of_error (s := s.setSt b) h]
    | ok m => rw [Session.act_load_of_ok h, Session.act_load_of_ok (s := s.setSt b) h]; rfl

theorem Session.act_setKey_setSt (s : State) (b : Byte) (o : Bool) (k : Option Nat) :
    Session.act ⟨s.setSt b, o⟩ (.setKey k) = ((Session.act ⟨s, o⟩ (.setKey k)).1,
      ⟨(Session.act ⟨s, o⟩ (.setKey k)).2.core.setSt b, (Session.act ⟨s, o⟩ (.setKey k)).2.loadOpen⟩) := by
  obtain ⟨l, hkey, -⟩ | ⟨n, -, hkey, -⟩ := Session.act_setKey_cases s o k
  · rw [Session.act_setKey_next o (hkey _), Session.act_setKey_next o (hkey _)]; rfl
  · rw [Session.act_setKey_refused o (hkey _), Session.act_setKey_refused o (hkey _)]

/-- Settles O60: a step and every host action carry ST along; TICK counts it down, RESET sets it. -/
theorem soundTimerIsNotObserved : Obligations.SoundTimerIsNotObserved := by
  intro s b
  obtain ⟨c, hc⟩ := step_setSt s b
  refine ⟨fun t ht => ⟨c, by rw [hc, ht]; rfl⟩, fun r hr => by rw [hc, hr]; rfl, fun o a => ?_⟩
  cases a
  case reset => exact ⟨State.reset.st, rfl⟩
  case load image => exact ⟨b, Session.act_load_setSt s b o image⟩
  case step => exact Session.act_step_setSt s b o
  case tick => exact ⟨countDown b, rfl⟩
  case setKey k => exact ⟨b, Session.act_setKey_setSt s b o k⟩
  case frame | status => exact ⟨b, rfl⟩

end Sys2Proof.Machine
end
